-- ==== Sys2Proof/Word.lean ====
section
/-! DEFINITION. The widths of the words that cross the block's boundary and of the fields inside them
(spec/00_scope.md R8; spec/30_encoding.md R60 to R65, R70). Bit 0 is the least significant bit (R10). -/

namespace Sys2Proof

/-- One byte of a byte transport (spec/20_memory.md R45, R47). -/
abbrev Byte := BitVec 8

/-- A command word or a response word: `CMD_W` = `RSP_W` = 64 (R8, R60). -/
abbrev Word := BitVec 64

/-- A pixel channel value, `CH_W` = 8 (R8, R62). -/
abbrev Channel := BitVec 8

/-- A sample rate in hertz, `RATE_W` = 32 (R8, R63). -/
abbrev Rate := BitVec 32

/-- A frequency code `F`, `FREQ_W` = 32; the frequency is `F/510` Hz (R8, R65). -/
abbrev FreqCode := BitVec 32

/-- A duration code `Dn`, `DUR_W` = 16; the duration is `Dn/10000` s (R8, R64). -/
abbrev DurCode := BitVec 16

/-- The 16-bit two's-complement pattern of a sample, `SAMPLE_W` = 16 (R8, R74). -/
abbrev Sample := BitVec 16

/-- The payload field of a response word, bits 47:0 (R70). -/
abbrev Payload := BitVec 48

end Sys2Proof
end

