-- ==== Sys2Proof/Config.lean ====
section
/-! DEFINITION. What one implementation of the block fixes and the spec leaves `OPEN`: the starting value
`Z0` and the tolerance `EPS_MAG` (spec/00_scope.md R8; spec/92_eei_decisions.md D10, D11). The number
system `NUM` is the record of Sys2Proof/Machine/NumberSystem.lean. The hardwired constants the spec prints are in
Sys2Proof/Machine/Constants.lean. -/

namespace Sys2Proof.Config

/-- A starting value `Z0 = (re + i*im)/den`: a complex number with rational parts over one denominator. -/
structure StartValue where
  re  : Int
  im  : Int
  den : Nat
  deriving DecidableEq, Repr

/-- The open parameters of the block (R8): `Z0` (R141), and `EPS_MAG = epsNum/epsDen` (R147, R152). -/
structure Params where
  z0     : StartValue
  epsNum : Nat
  epsDen : Nat
  deriving DecidableEq, Repr

/-- The spec's default `Z0 = (0.707, 0)`, used by every numeric vector (R141, D11).
DESIGN CHOICE (log entry 5): the value is the spec's default and not a fact about the repository. -/
def defaultStart : StartValue := { re := 707, im := 0, den := 1000 }

/-- The configuration `exec` runs: the default `Z0`, and `EPS_MAG` = 0, its value under the reference
semantics (R8, R147). DESIGN CHOICE (log entries 5 and 7). -/
def params : Params := { z0 := defaultStart, epsNum := 0, epsDen := 1 }

end Sys2Proof.Config
end

