-- ==== Sys2Proof/Syntax.lean ====
section
/-! DEFINITION. The commands of the block, one constructor per row of spec/opcode_table.json, and the
assembler's source lines (spec/30_encoding.md R66, R75 to R77). -/

namespace Sys2Proof

/-- The four commands (R66). Every operand is an unsigned field taken as it stands (R62), so its type is
the field's width and an operand out of range cannot be written. -/
inductive Instr where
  /-- `CSC r, g, b`: colour-space convert one pixel (R100). -/
  | csc (r g b : Channel)
  /-- `TICKS rate, dn`: whole sample periods in a duration (R120). -/
  | ticks (rate : Rate) (dn : DurCode)
  /-- `OSCNEW rate`: construct the oscillator (R140). -/
  | oscnew (rate : Rate)
  /-- `OSCTICK f`: advance one sample and answer it (R143). -/
  | osctick (f : FreqCode)
  deriving DecidableEq, Repr

/-- The six named segments of a scan line (R76, R123). -/
inductive Segment where
  | hsync | sporch | porch | sep | yscan | uvscan
  deriving DecidableEq, Repr

/-- One assembler statement: a command or a pseudo-instruction, with the numbers as they are written in
the source text, before any check that they fit (R75, R76, R77). -/
inductive Source where
  | csc (r g b : Nat)
  | ticks (rate dn : Nat)
  | oscnew (rate : Nat)
  | osctick (f : Nat)
  /-- `TICKS.<segment> rate` (R76). -/
  | segment (seg : Segment) (rate : Nat)
  /-- `OSCTICK.HZ h` (R77). -/
  | osctickHz (h : Nat)
  /-- `OSCTICK.LUMA n` (R77). -/
  | osctickLuma (n : Nat)
  /-- `OSCTICK.AVG s` (R77). -/
  | osctickAvg (s : Nat)
  deriving DecidableEq, Repr

/-- A command as the assembler statement that spells it. -/
def Instr.source : Instr → Source
  | .csc r g b => .csc r.toNat g.toNat b.toNat
  | .ticks rate dn => .ticks rate.toNat dn.toNat
  | .oscnew rate => .oscnew rate.toNat
  | .osctick f => .osctick f.toNat

end Sys2Proof
end

