-- ==== Sys2Proof/WellFormed.lean ====
section
/-! DEFINITION. What is well formed: an assembler statement (every operand fits its field, R75, and a
pseudo-instruction's operand is in the range R77 gives), a command, and a configuration (R141, R150, R152). -/

namespace Sys2Proof

/-- R75: "An operand that does not fit its field is an assembly error, not an encoding"; the ranges of the
pseudo-instructions are those of R77. -/
def Source.wf : Source → Bool
  | .csc r g b => r < 256 && g < 256 && b < 256
  | .ticks rate dn => rate < 4294967296 && dn < 65536
  | .oscnew rate => rate < 4294967296
  | .osctick f => f < 4294967296
  | .segment _ rate => rate < 4294967296
  | .osctickHz h => 510 * h < 4294967296
  | .osctickLuma n => n ≤ 255
  | .osctickAvg s => s ≤ 510

/-- A command is well formed when its operands fit their fields (R62 to R65). The operand types are the
field widths, so every command is (Sys2Proof/Laws/Encoding.lean). -/
def Instr.wf (i : Instr) : Bool := i.source.wf

/-- A configuration the block may have (log entry 19): denominators are not zero; `Z0 != 0` (R141);
`0.707 - EPS_MAG <= |Z0| <= 0.707 + EPS_MAG`, squared and multiplied out (R141); and
`EPS_MAG < 32767.5/32767 - 0.707`, multiplied out, so that samples stay in range (R152, R150). -/
def Config.Params.wf (p : Config.Params) : Bool :=
  let norm2 := p.z0.re * p.z0.re + p.z0.im * p.z0.im
  let lo : Int := 707 * p.epsDen - 1000 * p.epsNum
  let hi : Int := 707 * p.epsDen + 1000 * p.epsNum
  let den2 : Int := (p.z0.den : Int) * p.z0.den
  let unit2 : Int := (1000 * (p.epsDen : Int)) * (1000 * p.epsDen)
  p.z0.den != 0 && p.epsDen != 0 && (p.z0.re != 0 || p.z0.im != 0) &&
    decide (lo * lo * den2 ≤ norm2 * unit2) && decide (norm2 * unit2 ≤ hi * hi * den2) &&
    decide (hi * (2 * 32767) < 65535 * (1000 * (p.epsDen : Int)))

end Sys2Proof
end

