-- ==== Sys2Proof/Decode.lean ====
section
/-! DEFINITION. The decoder, total on every command word and on every sequence of bytes, and after it the
encoder, both written from the formats of spec/30_encoding.md (R61 to R68) and the byte order of
spec/20_memory.md R47. -/

namespace Sys2Proof

/-- Why a word or a sequence of bytes is no command. -/
inductive Reject where
  /-- `op` is 0x0 or 0x5 to 0xF (R68 a, b). -/
  | badOpcode
  /-- A bit of the format's `zero` field is 1 (R68 c). -/
  | reservedBits
  /-- Fewer than eight bytes: no command word has arrived (R41: "the block never sees part of one"). -/
  | truncated
  deriving DecidableEq, Repr

/-- `w[lo+len-1 : lo]` (R10). -/
def bits (w : Word) (lo len : Nat) : BitVec len := w.extractLsb' lo len

/-- Bits 63:60, the opcode field (R61). -/
def opField (w : Word) : BitVec 4 := bits w 60 4

/-- Decoding of one command word (R61 to R68). The opcode is looked at first and the `zero` field second,
which is the order of the checks of spec/60_exceptions.md R224. It reads nothing but the word (R67). -/
def decode (w : Word) : Except Reject Instr :=
  if opField w = 0x1#4 then
    if bits w 24 36 = 0#36 then .ok (.csc (bits w 16 8) (bits w 8 8) (bits w 0 8)) else .error .reservedBits
  else if opField w = 0x2#4 then
    if bits w 48 12 = 0#12 then .ok (.ticks (bits w 0 32) (bits w 32 16)) else .error .reservedBits
  else if opField w = 0x3#4 then
    if bits w 32 28 = 0#28 then .ok (.oscnew (bits w 0 32)) else .error .reservedBits
  else if opField w = 0x4#4 then
    if bits w 32 28 = 0#28 then .ok (.osctick (bits w 0 32)) else .error .reservedBits
  else .error .badOpcode

/-- A word from eight bytes, the byte with bits 7:0 first (R47). -/
def wordOfBytes (b0 b1 b2 b3 b4 b5 b6 b7 : Byte) : Word :=
  b7 ++ b6 ++ b5 ++ b4 ++ b3 ++ b2 ++ b1 ++ b0

/-- Decoding from a byte transport: eight bytes are one command word (R47, R60), the rest is left. -/
def decodeBytes : List Byte → Except Reject (Instr × List Byte)
  | b0 :: b1 :: b2 :: b3 :: b4 :: b5 :: b6 :: b7 :: rest =>
    match decode (wordOfBytes b0 b1 b2 b3 b4 b5 b6 b7) with
    | .ok i => .ok (i, rest)
    | .error r => .error r
  | _ => .error .truncated

/-- The instruction the decoder reads from the word `w` of a row of `nbits` bits, bits above `nbits` zero.
The bits are numbered as in the command word itself, whose one length is 64 (R60). -/
def decodeTableWord (nbits w : Nat) : Option Instr :=
  if nbits ≤ 64 then
    match decode (BitVec.ofNat 64 (w % 2 ^ nbits)) with
    | .ok i => some i
    | .error _ => none
  else none

/-- The word of a command, field by field from bit 63 down (R61, formats C, T, N, F). -/
def encode : Instr → Word
  | .csc r g b => 0x1#4 ++ 0#36 ++ r ++ g ++ b
  | .ticks rate dn => 0x2#4 ++ 0#12 ++ dn ++ rate
  | .oscnew rate => 0x3#4 ++ 0#28 ++ rate
  | .osctick f => 0x4#4 ++ 0#28 ++ f

/-- The eight bytes of a word, the byte with bits 7:0 first (R47). -/
def bytesOfWord (w : Word) : List Byte :=
  [bits w 0 8, bits w 8 8, bits w 16 8, bits w 24 8, bits w 32 8, bits w 40 8, bits w 48 8, bits w 56 8]

/-- The bytes of a command on a byte transport (R47). -/
def encodeBytes (i : Instr) : List Byte := bytesOfWord (encode i)

/-- A row of the opcode map (R66): a word selects it when `CMD & mask == match`. -/
structure Row where
  mnemonic : String
  mask     : Word
  pattern  : Word
  deriving DecidableEq, Repr

/-- R66: the opcode map. -/
def opcodeMap : List Row :=
  [ ⟨"CSC", 0xFFFFFFFFFF000000#64, 0x1000000000000000#64⟩,
    ⟨"TICKS", 0xFFFF000000000000#64, 0x2000000000000000#64⟩,
    ⟨"OSCNEW", 0xFFFFFFFF00000000#64, 0x3000000000000000#64⟩,
    ⟨"OSCTICK", 0xFFFFFFFF00000000#64, 0x4000000000000000#64⟩ ]

/-- A command word selects a row when `CMD & mask == match` (R66). -/
def Row.selects (r : Row) (w : Word) : Bool := w &&& r.mask == r.pattern

/-- The mnemonic of a command, as the opcode map spells it (R66). -/
def Instr.mnemonic : Instr → String
  | .csc _ _ _ => "CSC"
  | .ticks _ _ => "TICKS"
  | .oscnew _ => "OSCNEW"
  | .osctick _ => "OSCTICK"

end Sys2Proof
end

