-- ==== Sys2Proof/Machine/State.lean ====
section
/-! DEFINITION. The state of the block and of its boundary, as plain data, and the state right after reset
(spec/10_state.md R20 to R31; spec/70_reset_and_hazards.md R250 to R252). -/

namespace Sys2Proof.Machine

/-- The exact carrier of the complex state under the reference semantics (R159): the value is
`Z0 * exp(i * 2*pi * num/den)`, `num/den` the accumulated phase in turns. It holds `Z.RE` and `Z.IM`
together, which the block writes together and never one alone (R27). Log entry 4. -/
structure Phase where
  num : Nat
  den : Nat
  deriving DecidableEq, Repr

/-- What the outside world presents to the block: a command word (R20) or the reset event (R250). -/
inductive Input where
  | command (w : Word)
  | reset
  deriving DecidableEq, Repr

/-- What stops the model; none of these is a behaviour of the block (R233). -/
inductive Fault where
  /-- Raised by `OSCTICK` when `VALID` is 1 and `RATE` or `Z` holds no value (R28, R233 a). No run reaches
  it. Safe: the model stops where the spec gives no meaning. -/
  | readWithoutValue
  /-- Raised by `OSCTICK` when the number system gives a sample outside -32768 to 32767 (R150, R233 b).
  The reference semantics never does. Safe: the spec asks for a fault and not for a wrap or a saturation. -/
  | sampleOutOfRange
  deriving DecidableEq, Repr

/-- Why the model has no meaning for a command. -/
inductive Refusal where
  /-- Raised by `exec` alone, for a command that has no meaning yet. Safe. -/
  | notModelled (mnemonic : String)
  /-- Raised by `OSCNEW` and `OSCTICK` when the configuration breaks a constraint (R233 c). The configuration
  `exec` runs does not. Safe: the spec asks to refuse such a configuration. -/
  | badConfiguration
  deriving DecidableEq, Repr

/-- The block's own state, all the spec gives it (R21, R26, R27, R31), over whatever carries `Z`: a complex number of a
number system `NUM`, or the exact carrier of R159. `none` in `rate` and `z` is the spec's "holds no value" (R28; log
entry 3). -/
structure Block (Z : Type) where
  valid : Bool
  rate  : Option Rate
  z     : Option Z
  deriving DecidableEq, Repr

/-- The state. `valid`, `rate` and `z` are the block's own, all the spec gives it (R21, R26, R27, R31);
`none` in `rate` and `z` is the spec's "holds no value" (R28; log entry 3). `inputs` and `responses` are the
block's boundary: what has been presented and not yet taken, oldest first, and the response words produced,
oldest first (R20, R260; log entries 1 and 18). -/
structure State where
  valid     : Bool
  rate      : Option Rate
  z         : Option Phase
  inputs    : List Input
  responses : List Word
  deriving DecidableEq, Repr

/-- The block's own state, without its boundary (R21). -/
def State.block (s : State) : Block Phase := { valid := s.valid, rate := s.rate, z := s.z }

/-- The state with another state of the block and the same boundary. -/
def State.withBlock (b : Block Phase) (s : State) : State := { s with valid := b.valid, rate := b.rate, z := b.z }

/-- Right after reset: `VALID` = 0, and `Z.RE`, `Z.IM`, `RATE` hold no value (R28, R252). -/
def State.reset : State :=
  { valid := false, rate := none, z := none, inputs := [], responses := [] }

end Sys2Proof.Machine
end

