-- ==== Sys2Proof/Machine/Constants.lean ====
section
/-! DEFINITION. The hardwired constants the spec prints (spec/10_state.md R30), each literal in one place
(spec/93_implementation_defined.md U1: they are unaudited; log entry 11). -/

namespace Sys2Proof.Machine

/-- `FREQ_DEN`: frequency codes per hertz (R8, R65). -/
def freqDen : Nat := 510

/-- `DUR_DEN`: duration codes per second (R8, R64). -/
def durDen : Nat := 10000

/-- `AMP`: the output scale factor (R8, R143). -/
def amp : Int := 32767

/-- The coefficients of y in thousandths, for r, g, b (R101). -/
def yCoeff : Int × Int × Int := (65738, 129057, 25064)

/-- The coefficients of v in thousandths, for r, g, b (R101). -/
def vCoeff : Int × Int × Int := (112439, -94154, -18285)

/-- The coefficients of u in thousandths, for r, g, b (R101). -/
def uCoeff : Int × Int × Int := (-37945, -74494, 112439)

/-- The scale `0.003906` in millionths (R101). -/
def colourScale : Int := 3906

/-- `10^9`: thousandths times millionths (R103). -/
def colourUnit : Int := 1000000000

/-- The offset of y (R101). -/
def yOffset : Int := 16

/-- The offset of u and of v (R101). -/
def chromaOffset : Int := 128

/-- The duration code of a named segment (R76, R123). -/
def segmentCode : Segment → DurCode
  | .hsync => 90#16
  | .sporch => 30#16
  | .porch => 15#16
  | .sep => 45#16
  | .yscan => 880#16
  | .uvscan => 440#16

end Sys2Proof.Machine
end

