-- ==== Sys2Proof/Machine/Ops.lean ====
section
/-! DEFINITION. The named operations over the state: answering a command, raising an error (the one shared
operation the block has in place of taking an exception), the reset event, and the number conversions of the
spec's notation (spec/00_scope.md R9 to R11; spec/30_encoding.md R70, R71; spec/60_exceptions.md R220 to R227).
There is no return from an exception because nothing is entered (R226, R227), and no memory operation because
there is no memory (spec/20_memory.md R40). -/

namespace Sys2Proof.Machine

/-- What a step answers. -/
abbrev Result := Host.Outcome State Fault Refusal

/-- The statuses of a response (R71, R221). -/
inductive Status where
  | ok | illegal | badRate | uninit
  deriving DecidableEq, Repr

/-- The status codes (R71, R221). -/
def Status.code : Status → BitVec 4
  | .ok => 0x0#4
  | .illegal => 0x1#4
  | .badRate => 0x2#4
  | .uninit => 0x3#4

/-- `RSP[63:60] = status`, `RSP[59:48] = 0`, `RSP[47:0] = payload` (R70). -/
def responseWord (st : Status) (payload : Payload) : Word := st.code ++ 0#12 ++ payload

/-- `respond(status, payload)`: the command ends by producing its response word (R11, R70). -/
def respond (st : Status) (payload : Payload) (s : State) : State :=
  { s with responses := s.responses ++ [responseWord st payload] }

/-- The errors a command can end in (R221). -/
inductive Error where
  | illegal | badRate | uninit
  deriving DecidableEq, Repr

/-- The status that reports an error (R221). -/
def Error.status : Error → Status
  | .illegal => .illegal
  | .badRate => .badRate
  | .uninit => .uninit

/-- What a command leaves: the block's new state, and the status and the payload of its one response (R42, R70). -/
structure Reply (Z : Type) where
  block   : Block Z
  status  : Status
  payload : Payload
  deriving DecidableEq, Repr

/-- What a command answers, over any carrier of `Z`. -/
abbrev BlockResult (Z : Type) := Host.Outcome (Reply Z) Fault Refusal

/-- A reply delivered: the block's state is written and the response word is produced. -/
def deliver (s : State) : BlockResult Phase → Result
  | .next r => .next (respond r.status r.payload (s.withBlock r.block))
  | .fault e => .fault e
  | .refused e => .refused e

/-- `raise <Error>` (R11, R222): the command ends at once, no state of the block is written, the response is
`respond(code, 0)`. This is the whole of what the block has for taking an exception (R226). -/
def raise {Z : Type} (e : Error) (b : Block Z) : BlockResult Z :=
  .next { block := b, status := e.status, payload := 0#48 }

/-- The command ends with status `OK` and the payload. -/
def finish {Z : Type} (payload : Payload) (b : Block Z) : BlockResult Z :=
  .next { block := b, status := .ok, payload := payload }

/-- The block after reset (R250, R252): `VALID` is 0, and `Z.RE`, `Z.IM`, `RATE` hold no value (R28). -/
def clearedBlock {Z : Type} : Block Z := { valid := false, rate := none, z := none }

/-- The reset event (R250). It produces no response word, and nothing outside the block changes. -/
def resetEvent (s : State) : State := s.withBlock clearedBlock

/-- `RATE`, `Z` and `VALID` written together (R140). -/
def construct {Z : Type} (rate : Rate) (z : Z) : Block Z := { valid := true, rate := some rate, z := some z }

/-- `Z.RE` and `Z.IM` written together (R27, R143). -/
def writeZ {Z : Type} (z : Z) (b : Block Z) : Block Z := { b with z := some z }

/-- `trunc0(x)` for `x = n/d`: the fractional part dropped, rounding toward zero (R9). -/
def trunc0 (n d : Int) : Int := n.tdiv d

/-- `clamp(x) = trunc0(min(255, max(0, x)))` for `x = n/d` with `d > 0` (R9). -/
def clamp (n d : Int) : Int := trunc0 (min (255 * d) (max 0 n)) d

/-- `rha(x)` for `x = n/d` with `d > 0`: the nearest integer, a tie away from zero,
`sign(x) * floor(|x| + 1/2)` (R9, R151). -/
def rha (n : Int) (d : Nat) : Int :=
  if 0 ≤ n then (2 * n + d) / (2 * d) else -((2 * (-n) + d) / (2 * d))

/-- `to_i16(n)`: the 16-bit two's-complement pattern, defined only for `-32768 <= n <= 32767` (R10, R150). -/
def toI16 (n : Int) : Option Sample :=
  if -32768 ≤ n ∧ n ≤ 32767 then some (BitVec.ofInt 16 n) else none

end Sys2Proof.Machine
end

