-- ==== Sys2Proof/Machine/Flags.lean ====
section
/-! DEFINITION. The one flag of the block, `VALID` (spec/10_state.md R25), and what its value guards. There are
no condition codes. -/

namespace Sys2Proof.Machine

/-- `VALID` as the bit the spec describes (R21). -/
def validBit {Z : Type} (b : Block Z) : BitVec 1 := BitVec.ofBool b.valid

/-- `OSCTICK` reads `VALID` and answers `UNINIT` when it is 0 (R25, R145); otherwise it goes on with `RATE` and
`Z`. A read of either that holds no value is a bug of the model and faults (R28, R233 a). -/
def whenValid {Z : Type} (b : Block Z) (k : Rate → Z → BlockResult Z) : BlockResult Z :=
  if validBit b = 0#1 then raise .uninit b
  else match b.rate, b.z with
    | some rate, some z => k rate z
    | _, _ => .fault .readWithoutValue

end Sys2Proof.Machine
end

