-- ==== Sys2Proof/Machine/Operands.lean ====
section
/-! DEFINITION. What the operand fields stand for and how results are packed into the payload
(spec/30_encoding.md R62 to R65, R72 to R74), and the frequency codes the spec names (R65, R77). -/

namespace Sys2Proof.Machine

/-- A pixel channel as the integer 0 to 255 it is (R62). -/
def channelValue (c : Channel) : Int := c.toNat

/-- The frequency in hertz a code stands for, `F/510` (R65). -/
def frequencyHz (f : FreqCode) : Rat := (f.toNat : Rat) / freqDen

/-- The duration in seconds a code stands for, `dn/10000` (R64). -/
def durationSeconds (dn : DurCode) : Rat := (dn.toNat : Rat) / durDen

/-- The code of an integer frequency `h` Hz, `510*h` (R65, R77). -/
def hzCode (h : Nat) : Nat := freqDen * h

/-- The code of the luma frequency `1500 + 800*n/255` Hz, `765000 + 1600*n` (R65, R77, R190). -/
def lumaCode (n : Nat) : Nat := 765000 + 1600 * n

/-- The code of the frequency `1500 + 800*(s/2)/255` Hz, `765000 + 800*s` (R65, R77). -/
def avgCode (s : Nat) : Nat := 765000 + 800 * s

/-- Payload of `CSC`: y in 23:16, u in 15:8, v in 7:0 (R72). -/
def colourPayload (y u v : Channel) : Payload := 0#24 ++ y ++ u ++ v

/-- Payload of `TICKS`: the count in 47:0 (R73). -/
def countPayload (n : Nat) : Payload := BitVec.ofNat 48 n

/-- Payload of `OSCTICK`: the sample in 15:0, 47:16 zero, no sign extension (R74). -/
def samplePayload (smp : Sample) : Payload := 0#32 ++ smp

/-- The two bytes of a sample on a byte transport, low byte first (spec/20_memory.md R45). -/
def sampleBytes (smp : Sample) : List Byte := [smp.extractLsb' 0 8, smp.extractLsb' 8 8]

/-- The fields of a response word (R70). -/
def statusField (rsp : Word) : BitVec 4 := bits rsp 60 4

/-- The payload field of a response word (R70). -/
def payloadField (rsp : Word) : Payload := bits rsp 0 48

/-- The sample a reader takes from a response: `RSP[15:0]` (R45, R74). -/
def sampleField (rsp : Word) : Sample := bits rsp 0 16

end Sys2Proof.Machine
end

