-- ==== Sys2Proof/Machine/Colour.lean ====
section
/-! DEFINITION. The colour transform, command `CSC` (spec/40_color_transform.md R100 to R108). -/

namespace Sys2Proof.Machine

/-- A weighted sum `a*r + b*g + c*b` in thousandths (R103). -/
def weighted (k : Int × Int × Int) (r g b : Channel) : Int :=
  k.1 * channelValue r + k.2.1 * channelValue g + k.2.2 * channelValue b

/-- `clamp(base + 0.003906 * S/1000)` over the unit `10^9` (R100, R103). -/
def fin (base sum : Int) : Int := clamp (base * colourUnit + colourScale * sum) colourUnit

/-- y of a pixel (R100, R103). -/
def cscY (r g b : Channel) : Int := fin yOffset (weighted yCoeff r g b)

/-- u of a pixel (R100, R103). -/
def cscU (r g b : Channel) : Int := fin chromaOffset (weighted uCoeff r g b)

/-- v of a pixel (R100, R103). -/
def cscV (r g b : Channel) : Int := fin chromaOffset (weighted vCoeff r g b)

/-- The three results as channel values, in the order (y, u, v) (R72). -/
def csc (r g b : Channel) : Channel × Channel × Channel :=
  (BitVec.ofInt 8 (cscY r g b), BitVec.ofInt 8 (cscU r g b), BitVec.ofInt 8 (cscV r g b))

/-- `CSC r, g, b` (R100): no state read, none written, `OK` with (y, u, v). -/
def cscOn {Z : Type} (r g b : Channel) (blk : Block Z) : BlockResult Z :=
  finish (colourPayload (csc r g b).1 (csc r g b).2.1 (csc r g b).2.2) blk

/-- `CSC r, g, b` in the machine (R100). -/
def execCsc (r g b : Channel) (s : State) : Result := deliver s (cscOn r g b s.block)

end Sys2Proof.Machine
end

