-- ==== Sys2Proof/Machine/Trig.lean ====
section
/-! DEFINITION. The output step of the oscillator over the real numbers (spec/42_oscillator.md R143, R146, R151,
R152, R159): `rha(32767 * Re(Z0 * exp(i*2*pi*num/den)))` by exact integer arithmetic. At a precision `k` the cosine
and the sine are enclosed in rational intervals of half width `2 * 2^-k`; when both ends of the interval of the value
round to one integer, that integer is the sample, and otherwise the precision is doubled. Log entry 8. -/

namespace Sys2Proof.Machine

/-- The first `m` terms of `sum (-1)^i / ((2*(j+i)+1) * x^(2*i))` from term `j` on, as numerator and denominator. -/
def arctanTail (x : Nat) : Nat → Nat → Int × Nat
  | 0, _ => (0, 1)
  | m + 1, j =>
    let t := arctanTail x m (j + 1)
    ((t.2 * (x * x) : Nat) - (2 * j + 1 : Nat) * t.1, (2 * j + 1) * (t.2 * (x * x)))

/-- `floor(2^k * (16*atan(1/5) - 4*atan(1/239)))` with `k+1` terms of each series: pi in units of `2^-k`. -/
def piScaled (k : Nat) : Int :=
  let a := arctanTail 5 (k + 1) 0
  let b := arctanTail 239 (k + 1) 0
  2 ^ k * (16 * (a.1 * (b.2 * 239 : Nat)) - 4 * (b.1 * (a.2 * 5 : Nat))) / ((a.2 * 5) * (b.2 * 239) : Nat)

/-- The first `m + 1` terms of `exp(i*p/q)` in Horner form from term `j` on: real and imaginary numerator and the
common denominator of `1 + (i*p/q)/j * (1 + (i*p/q)/(j+1) * (...))`. -/
def expSeries (p : Int) (q : Nat) : Nat → Nat → Int × Int × Nat
  | 0, _ => (1, 0, 1)
  | m + 1, j =>
    let t := expSeries p q m (j + 1)
    ((q * j * t.2.2 : Nat) - p * t.2.1, p * t.1, q * j * t.2.2)

/-- A rotation by whole quarter turns (`quarter` modulo 4) of the pair (cosine, sine). -/
def quarterTurn (quarter : Nat) (c s : Int) : Int × Int :=
  match quarter % 4 with
  | 0 => (c, s)
  | 1 => (-s, c)
  | 2 => (-c, -s)
  | _ => (s, -c)

/-- Approximations of `cos(2*pi*num/den)` and `sin(2*pi*num/den)` at precision `k`: two numerators and their
denominator. The whole quarter turns are taken out exactly, so that at a multiple of a quarter turn both are exact. -/
def cosSin (k : Nat) (ph : Phase) : Int × Int × Nat :=
  let t := expSeries (piScaled k * (4 * ph.num % ph.den : Nat)) (2 ^ (k + 1) * ph.den) (k + 8) 1
  let cs := quarterTurn (4 * ph.num / ph.den) t.1 t.2.1
  (cs.1, cs.2, t.2.2)

/-- The half width of the interval of `32767 * (re*cos - im*sin)`, over the denominator `d * 2^k`; zero at a
multiple of a quarter turn. -/
def halfWidth (z0 : Config.StartValue) (ph : Phase) (d : Nat) : Int :=
  if 4 * ph.num % ph.den = 0 then 0 else amp * (2 * ((z0.re.natAbs + z0.im.natAbs : Nat) * d))

/-- The roundings of the two ends of the interval of `32767 * Re(Z)` at precision `k`. -/
def sampleEnds (z0 : Config.StartValue) (k : Nat) (ph : Phase) : Int × Int :=
  let t := cosSin k ph
  let v := amp * (z0.re * t.1 - z0.im * t.2.1) * 2 ^ k
  let e := halfWidth z0 ph t.2.2
  let d := z0.den * t.2.2 * 2 ^ k
  (rha (v - e) d, rha (v + e) d)

/-- Doubles the precision until the two ends round to one integer. When the last precision still does not decide,
the value is a tie, and the end away from zero is taken (R151; log entry 8). -/
def refineSample (z0 : Config.StartValue) (ph : Phase) : Nat → Nat → Int
  | 0, k =>
    let e := sampleEnds z0 k ph
    if e.1.natAbs ≤ e.2.natAbs then e.2 else e.1
  | n + 1, k =>
    let e := sampleEnds z0 k ph
    if e.1 = e.2 then e.1 else refineSample z0 ph n (2 * k)

/-- `rha(32767 * Re(Z))` (R143, R146, R151, R159): precisions `64 * 2^j` for `j` up to 42. -/
def sampleOf (z0 : Config.StartValue) (ph : Phase) : Int := refineSample z0 ph 42 64

end Sys2Proof.Machine
end

