-- ==== Sys2Proof/Machine/NumberSystem.lean ====
section
/-! DEFINITION. The number system `NUM` of the oscillator as the parameter it is (spec/42_oscillator.md R152): a record
of four total functions that depend on their arguments alone. What a command needs of whatever carries `Z` is a
`Carrier`; every number system gives one, whose states are complex numbers (re, im), and the exact carrier of R159 is
another, the one `exec` evaluates. -/

namespace Sys2Proof.Machine

/-- R152: `k_of`, `rot`, `cmul` and `scale_round`. `K` holds the stored constant of R22 and `N` the numbers: a rotor is the
pair (c, s), a complex state the pair (re, im), and `scale_round` maps `Z.RE` to the integer `smp`. -/
structure NumberSystem (K N : Type) where
  kOf        : Rate → K
  rot        : FreqCode → K → N × N
  cmul       : N × N → N × N → N × N
  scaleRound : N → Int

/-- What the oscillator needs of the states that carry `Z`: the one after construction, the rotation by one tick, and the
integer of the output step. -/
structure Carrier (Z : Type) where
  start  : Rate → Z
  turn   : Rate → FreqCode → Z → Z
  sample : Z → Int

/-- The carrier of a number system with the starting value `z0`, `Z0` as a value of it (R140, R143, R152). -/
def NumberSystem.carrier {K N : Type} (n : NumberSystem K N) (z0 : N × N) : Carrier (N × N) where
  start _ := z0
  turn rate f z := n.cmul z (n.rot f (n.kOf rate))
  sample z := n.scaleRound z.1

/-- One tick (R143): rotate, then round the new state (R144), then convert to 16 bits, which is defined in range only
(R150). -/
def Carrier.tick {Z : Type} (c : Carrier Z) (rate : Rate) (f : FreqCode) (z : Z) : Option (Z × Sample) :=
  let z' := c.turn rate f z
  (toI16 (c.sample z')).map fun smp => (z', smp)

/-- `Z` after construction and a row of ticks, each on the state the one before left (R143, spec/20_memory.md R48). -/
def Carrier.after {Z : Type} (c : Carrier Z) (rate : Rate) (fs : List FreqCode) : Z :=
  fs.foldl (fun z f => c.turn rate f z) (c.start rate)

/-- The carrier of `K = 2*pi/RATE`: the number `510 * RATE` of frequency codes in one turn per sample (R22, R159). -/
def turnCodes (rate : Rate) : Nat := freqDen * rate.toNat

/-- The phases of a product add, modulo one turn (R146, R159). Phases over one denominator, the only ones a run
reaches, add their numerators; otherwise both are brought to a common denominator (log entry 20). -/
def Phase.rotate (z r : Phase) : Phase :=
  if z.den = r.den then { num := (z.num + r.num) % z.den, den := z.den }
  else { num := (z.num * r.den + r.num * z.den) % (z.den * r.den), den := z.den * r.den }

/-- The rotor of a code under the exact carrier: the turn `F/(510*RATE)` (R159). -/
def rotor (f : FreqCode) (rate : Rate) : Phase := { num := f.toNat % turnCodes rate, den := turnCodes rate }

/-- The reference semantics on the exact carrier of R159: phase 0 after construction, the product adds turns, and the
output is the sample of Sys2Proof/Machine/Trig.lean. -/
def phaseCarrier (z0 : Config.StartValue) : Carrier Phase where
  start rate := { num := 0, den := turnCodes rate }
  turn rate f z := z.rotate (rotor f rate)
  sample := sampleOf z0

end Sys2Proof.Machine
end

