-- ==== Sys2Proof/Machine/Oscillator.lean ====
section
/-! DEFINITION. The oscillator, commands `OSCNEW` and `OSCTICK` (spec/42_oscillator.md R140 to R159). Each meaning is
one line over an operation that takes the open parameters of the block, so that laws can be stated for every admissible
`Z0` and every number system (spec/92_eei_decisions.md D10, D11). -/

namespace Sys2Proof.Machine

/-- R233 c: a configuration that breaks a constraint is refused. -/
def whenConfigured {Z : Type} (p : Config.Params) (r : BlockResult Z) : BlockResult Z :=
  if p.wf then r else .refused .badConfiguration

/-- `OSCNEW rate` under the parameters `p` and any carrier (R140): `BAD_RATE` and no state written when `rate` is 0 (R142),
otherwise `RATE`, `Z` and `VALID` written together, and `OK` with payload 0. -/
def oscNew {Z : Type} (p : Config.Params) (c : Carrier Z) (rate : Rate) (b : Block Z) : BlockResult Z :=
  whenConfigured p <|
    if rate = 0#32 then raise .badRate b
    else finish 0#48 (construct rate (c.start rate))

/-- `OSCTICK f` under the parameters `p` and any carrier (R143): `UNINIT` when `VALID` is 0 (R145), otherwise `Z` rotated and
the sample answered (R144); a sample out of the 16-bit range faults (R150, R233 b). -/
def oscTick {Z : Type} (p : Config.Params) (c : Carrier Z) (f : FreqCode) (b : Block Z) : BlockResult Z :=
  whenConfigured p <| whenValid b fun rate z =>
    match c.tick rate f z with
    | some (z', smp) => finish (samplePayload smp) (writeZ z' b)
    | none => .fault .sampleOutOfRange

/-- `OSCNEW rate` (R140). -/
def execOscnew (rate : Rate) (s : State) : Result :=
  deliver s (oscNew Config.params (phaseCarrier Config.params.z0) rate s.block)

/-- `OSCTICK f` (R143). -/
def execOsctick (f : FreqCode) (s : State) : Result :=
  deliver s (oscTick Config.params (phaseCarrier Config.params.z0) f s.block)

end Sys2Proof.Machine
end

