-- ==== Sys2Proof/Machine/Timing.lean ====
section
/-! DEFINITION. The timing converter, command `TICKS` (spec/41_timing_converter.md R120 to R130). -/

namespace Sys2Proof.Machine

/-- `floor(rate * dn / 10000)`, the product at full width (R120, R121). -/
def tickCount (rate : Rate) (dn : DurCode) : Nat := rate.toNat * dn.toNat / durDen

/-- `TICKS rate, dn` (R120): no state read, none written (not even `RATE`), `OK` with the count. -/
def ticksOn {Z : Type} (rate : Rate) (dn : DurCode) (b : Block Z) : BlockResult Z :=
  finish (countPayload (tickCount rate dn)) b

/-- `TICKS rate, dn` in the machine (R120). -/
def execTicks (rate : Rate) (dn : DurCode) (s : State) : Result := deliver s (ticksOn rate dn s.block)

end Sys2Proof.Machine
end

