-- ==== Sys2Proof/Machine/Dispatch.lean ====
section
/-! DEFINITION. The dispatch of a decoded command to its meaning, one arm per constructor of `Instr`. -/

namespace Sys2Proof.Machine

def exec (i : Instr) (s : State) : Host.Outcome State Fault Refusal :=
  match i with
  | .csc r g b => Sys2Proof.Machine.execCsc r g b s
  | .ticks rate dn => Sys2Proof.Machine.execTicks rate dn s
  | .oscnew rate => Sys2Proof.Machine.execOscnew rate s
  | .osctick f => Sys2Proof.Machine.execOsctick f s

end Sys2Proof.Machine
end

