-- ==== Sys2Proof/Machine/Executor.lean ====
section
/-! DEFINITION. The command executor: what one step does with the oldest input the outside world has presented
(spec/10_state.md R20; spec/20_memory.md R48; spec/60_exceptions.md R224; spec/70_reset_and_hazards.md R250). -/

namespace Sys2Proof.Machine

/-- A command word performed (R20): decoded first, which reads no state (R67); a word that is no command is answered
`ILLEGAL` and writes no state (R68, R224). -/
def perform (w : Word) (s : State) : Result :=
  match decode w with
  | .ok i => exec i s
  | .error _ => deliver s (raise .illegal s.block)

/-- One input taken: a command word is performed; the reset event has its effect between two commands (R250). -/
def accept (i : Input) (s : State) : Result :=
  match i with
  | .command w => perform w s
  | .reset => .next (resetEvent s)

/-- The oldest input is taken completely before the next (R48). With nothing presented the block is idle and keeps all
its state (spec/60_exceptions.md R231; log entry 1). -/
def takeInput (s : State) : Result :=
  match s.inputs with
  | [] => .next s
  | i :: rest => accept i { s with inputs := rest }

/-- The word `w` of a row of `nbits` bits, bits above `nbits` zero. -/
def tableWord (nbits w : Nat) : Word := BitVec.ofNat 64 (w % 2 ^ nbits)

end Sys2Proof.Machine
end

