-- ==== Sys2Proof/Machine/Step.lean ====
section
/-! DEFINITION. The step of the machine, and the state in which the next step runs a given word. -/

namespace Sys2Proof.Machine

/-- One step: the oldest presented input is taken (spec/10_state.md R20, spec/20_memory.md R48). -/
def step (s : State) : Host.Outcome State Fault Refusal := takeInput s

/-- `s` with the word presented as the very next input. The block fetches nothing (spec/10_state.md R24): a program is
the sequence of words the host presents, and this stands for the host presenting one (log entry 2). -/
def State.withFetchWord (s : State) (nbits w : Nat) : State :=
  { s with inputs := .command (tableWord nbits w) :: s.inputs }

end Sys2Proof.Machine
end

