-- ==== Sys2Proof/Machine/AnyCarrier.lean ====
section
/-! DEFINITION. The block under any parameters and any number system (spec/42_oscillator.md R152; spec/00_scope.md R8): the
same meanings as `exec`, over any carrier of `Z`. -/

namespace Sys2Proof.Machine

/-- One command of the block under the parameters `p` and the carrier `c`. -/
def commandOn {Z : Type} (p : Config.Params) (c : Carrier Z) (i : Instr) (b : Block Z) : BlockResult Z :=
  match i with
  | .csc r g b' => cscOn r g b' b
  | .ticks rate dn => ticksOn rate dn b
  | .oscnew rate => oscNew p c rate b
  | .osctick f => oscTick p c f b

/-- One command word (spec/10_state.md R20; spec/60_exceptions.md R224). -/
def wordOn {Z : Type} (p : Config.Params) (c : Carrier Z) (w : Word) (b : Block Z) : BlockResult Z :=
  match decode w with
  | .ok i => commandOn p c i b
  | .error _ => raise .illegal b

/-- A run of command words with the response words it produces, in order (spec/20_memory.md R48;
spec/70_reset_and_hazards.md R260). -/
def runOn {Z : Type} (p : Config.Params) (c : Carrier Z) : List Word → Block Z →
    Host.Outcome (Block Z × List Word) Fault Refusal
  | [], b => .next (b, [])
  | w :: ws, b =>
    match wordOn p c w b with
    | .fault e => .fault e
    | .refused e => .refused e
    | .next r =>
      match runOn p c ws r.block with
      | .next (b', rsps) => .next (b', responseWord r.status r.payload :: rsps)
      | .fault e => .fault e
      | .refused e => .refused e

end Sys2Proof.Machine
end

