-- ==== Sys2Proof/Machine/Assembler.lean ====
section
/-! DEFINITION. The assembler of the command set (spec/30_encoding.md R75 to R77): source text to command words. A
source is a list of characters. The lexical points R75 leaves open are those of log entry 13. -/

namespace Sys2Proof.Machine

/-- The command a statement stands for, `none` when an operand does not fit (R75); a pseudo-instruction expands to its
command (R76, R77). -/
def expand (src : Source) : Option Instr :=
  if src.wf then
    match src with
    | .csc r g b => some (.csc (BitVec.ofNat 8 r) (BitVec.ofNat 8 g) (BitVec.ofNat 8 b))
    | .ticks rate dn => some (.ticks (BitVec.ofNat 32 rate) (BitVec.ofNat 16 dn))
    | .oscnew rate => some (.oscnew (BitVec.ofNat 32 rate))
    | .osctick f => some (.osctick (BitVec.ofNat 32 f))
    | .segment seg rate => some (.ticks (BitVec.ofNat 32 rate) (segmentCode seg))
    | .osctickHz h => some (.osctick (BitVec.ofNat 32 (hzCode h)))
    | .osctickLuma n => some (.osctick (BitVec.ofNat 32 (lumaCode n)))
    | .osctickAvg s => some (.osctick (BitVec.ofNat 32 (avgCode s)))
  else none

/-- What is wrong with a source line. -/
inductive AsmError where
  /-- The mnemonic is none of R75 to R77. -/
  | unknownMnemonic
  /-- The mnemonic does not take that many operands. -/
  | operandCount
  /-- An operand is no decimal or `0x` hexadecimal number. -/
  | badNumber
  /-- An operand does not fit its field or its range (R75, R77). -/
  | operandRange
  deriving DecidableEq, Repr

/-- The value of a digit in a base of at most 16. -/
def digitValue (base : Nat) (c : Char) : Option Nat :=
  let n := c.toNat
  let v := if 48 ≤ n ∧ n ≤ 57 then n - 48
    else if 97 ≤ n ∧ n ≤ 102 then n - 87
    else if 65 ≤ n ∧ n ≤ 70 then n - 55
    else base
  if v < base then some v else none

/-- The value of a row of digits after the value `acc` of those before. -/
def digitsValue (base : Nat) : List Char → Nat → Option Nat
  | [], acc => some acc
  | c :: cs, acc =>
    match digitValue base c with
    | some v => digitsValue base cs (acc * base + v)
    | none => none

/-- "A number is decimal, or hexadecimal with the prefix `0x`" (R75). -/
def number : List Char → Option Nat
  | '0' :: 'x' :: c :: cs => digitsValue 16 (c :: cs) 0
  | c :: cs => digitsValue 10 (c :: cs) 0
  | [] => none

/-- Blanks between tokens (log entry 13). -/
def isBlank (c : Char) : Bool := c == ' ' || c == '\t'

/-- A token without the blanks around it. -/
def trim (cs : List Char) : List Char :=
  ((cs.dropWhile isBlank).reverse.dropWhile isBlank).reverse

/-- "A `;` starts a comment that runs to the end of the line" (R75). -/
def stripComment (cs : List Char) : List Char := cs.takeWhile fun c => c != ';'

/-- The tokens between commas (R75). -/
def splitCommas : List Char → List (List Char)
  | [] => [[]]
  | c :: cs =>
    match c == ',', splitCommas cs with
    | true, ts => [] :: ts
    | false, t :: ts => (c :: t) :: ts
    | false, [] => [[c]]

/-- The numbers of an operand list; no operand at all is the empty list. -/
def operands (cs : List Char) : Option (List Nat) :=
  if trim cs = [] then some [] else (splitCommas cs).mapM fun t => number (trim t)

/-- A mnemonic (R75 to R77) with the number of its operands and the statement it makes of them. -/
def statement (mnemonic : List Char) (ops : List Nat) : Except AsmError Source :=
  let one (f : Nat → Source) : Except AsmError Source :=
    match ops with
    | [a] => .ok (f a)
    | _ => .error .operandCount
  if mnemonic = ['C', 'S', 'C'] then
    match ops with
    | [r, g, b] => .ok (.csc r g b)
    | _ => .error .operandCount
  else if mnemonic = ['T', 'I', 'C', 'K', 'S'] then
    match ops with
    | [rate, dn] => .ok (.ticks rate dn)
    | _ => .error .operandCount
  else if mnemonic = ['O', 'S', 'C', 'N', 'E', 'W'] then one .oscnew
  else if mnemonic = ['O', 'S', 'C', 'T', 'I', 'C', 'K'] then one .osctick
  else if mnemonic = ['T', 'I', 'C', 'K', 'S', '.', 'H', 'S', 'Y', 'N', 'C'] then one (.segment .hsync)
  else if mnemonic = ['T', 'I', 'C', 'K', 'S', '.', 'S', 'P', 'O', 'R', 'C', 'H'] then one (.segment .sporch)
  else if mnemonic = ['T', 'I', 'C', 'K', 'S', '.', 'P', 'O', 'R', 'C', 'H'] then one (.segment .porch)
  else if mnemonic = ['T', 'I', 'C', 'K', 'S', '.', 'S', 'E', 'P'] then one (.segment .sep)
  else if mnemonic = ['T', 'I', 'C', 'K', 'S', '.', 'Y', 'S', 'C', 'A', 'N'] then one (.segment .yscan)
  else if mnemonic = ['T', 'I', 'C', 'K', 'S', '.', 'U', 'V', 'S', 'C', 'A', 'N'] then one (.segment .uvscan)
  else if mnemonic = ['O', 'S', 'C', 'T', 'I', 'C', 'K', '.', 'H', 'Z'] then one .osctickHz
  else if mnemonic = ['O', 'S', 'C', 'T', 'I', 'C', 'K', '.', 'L', 'U', 'M', 'A'] then one .osctickLuma
  else if mnemonic = ['O', 'S', 'C', 'T', 'I', 'C', 'K', '.', 'A', 'V', 'G'] then one .osctickAvg
  else .error .unknownMnemonic

/-- The statement of one line, with the numbers as they are written (R75); none when the line is empty or a comment. -/
def parseLine (line : List Char) : Except AsmError (Option Source) :=
  let cs := trim (stripComment line)
  if cs = [] then .ok none
  else
    match operands (cs.dropWhile fun c => !isBlank c) with
    | none => .error .badNumber
    | some ops =>
      match statement (cs.takeWhile fun c => !isBlank c) ops with
      | .error e => .error e
      | .ok src => .ok (some src)

/-- One line assembled (R75): nothing, or one command whose operands fit their fields. -/
def assembleLine (line : List Char) : Except AsmError (Option Word) :=
  match parseLine line with
  | .error e => .error e
  | .ok none => .ok none
  | .ok (some src) =>
    match expand src with
    | some i => .ok (some (encode i))
    | none => .error .operandRange

/-- A program, line by line ("One command per line", R75). -/
def assemble : List (List Char) → Except AsmError (List Word)
  | [] => .ok []
  | line :: lines =>
    match assembleLine line, assemble lines with
    | .ok (some w), .ok ws => .ok (w :: ws)
    | .ok none, .ok ws => .ok ws
    | .ok _, .error e => .error e
    | .error e, _ => .error e

end Sys2Proof.Machine
end

