-- ==== Sys2Proof/Machine/Encoder.lean ====
section
/-! DEFINITION. The documented host: the Image Model and the Protocol Sequencer (spec/43_host_sequencer.md R180 to R195),
as functions that produce the command sequence of one encode, and the Encoder that drives the block with them and takes its
samples. It is outside the block (spec/00_scope.md R5) and no step uses it. What the source does not give is a parameter
(spec/93_implementation_defined.md U13; log entry 14). -/

namespace Sys2Proof.Machine

/-- A pixel of the Image: the roles Y, U, V by field (R180, R181). -/
structure Pixel where
  y : Channel
  u : Channel
  v : Channel
  deriving DecidableEq, Repr

/-- `WIDTH` (R8, R181). -/
def imageWidth : Nat := 320

/-- `HEIGHT` (R8, R181). -/
def imageHeight : Nat := 240

/-- The row-major grid of pixels; its length is 76800 in every image that is built (R181). -/
structure Image where
  pixels : List Pixel
  deriving DecidableEq, Repr

/-- The host's errors (R184) and the bounds error recommended for a lookup (R183). -/
inductive ImageError where
  | invalidVectorSize (actual expected : Nat)
  | invalidWidth (actual expected : Nat)
  | invalidHeight (actual expected : Nat)
  | outOfBounds (x y : Nat)
  deriving DecidableEq, Repr

/-- The colour transform on every consecutive R, G, B triple of the raw buffer (R182; spec/20_memory.md R46). -/
def convertTriples : List Byte → List Pixel
  | r :: g :: b :: rest =>
    { y := (csc r g b).1, u := (csc r g b).2.1, v := (csc r g b).2.2 } :: convertTriples rest
  | _ => []

/-- The `CSC` commands of an image construction, one per triple in order (R182, R254). -/
def cscCommands : List Byte → List Instr
  | r :: g :: b :: rest => .csc r g b :: cscCommands rest
  | _ => []

/-- `build(rgb_bytes)` (R182): `InvalidVectorSize` unless there are `width*height*3` bytes. -/
def buildImage (rgb : List Byte) : Except ImageError Image :=
  let expected := imageWidth * imageHeight * 3
  if rgb.length = expected then .ok { pixels := convertTriples rgb }
  else .error (.invalidVectorSize rgb.length expected)

/-- Construction from a decoded image of stated dimensions (R182, R184). The width is looked at first (log entry 14).
DESIGN CHOICE (log entry 23): the spec does not say how a decoded image carries its pixels; here they are the raw R, G, B
bytes of R182 beside the dimensions, and with the right dimensions and a wrong number of bytes it is `InvalidVectorSize`. -/
def buildDecoded (width height : Nat) (rgb : List Byte) : Except ImageError Image :=
  if width ≠ imageWidth then .error (.invalidWidth width imageWidth)
  else if height ≠ imageHeight then .error (.invalidHeight height imageHeight)
  else buildImage rgb

/-- Lookup of the pixel at column `x`, row `y`, failing with a bounds error (R181, R183). -/
def Image.pixelAt (img : Image) (x y : Nat) : Except ImageError Pixel :=
  if x < imageWidth ∧ y < imageHeight then
    match img.pixels[y * imageWidth + x]? with
    | some p => .ok p
    | none => .error (.outOfBounds x y)
  else .error (.outOfBounds x y)

/-- The frequencies of the header's tones after its leader: "1900/1200/1300/1100 Hz combinations" (R187). -/
inductive HeaderHz where
  | hz1900 | hz1200 | hz1300 | hz1100
  deriving DecidableEq, Repr

/-- A frequency of the header in hertz (R187). -/
def HeaderHz.hertz : HeaderHz → Nat
  | .hz1900 => 1900
  | .hz1200 => 1200
  | .hz1300 => 1300
  | .hz1100 => 1100

/-- One pair of the header's table: a frequency and a duration as a fraction of the rate (R187). -/
structure HeaderTone where
  tone     : HeaderHz
  fraction : Rat
  deriving DecidableEq, Repr

/-- The readings of the average of two chroma values that the source leaves open (R191; spec/91_not_in_source.md N7): the exact
mean, or an integer mean, which for an odd sum is one of the two integers beside the exact one. -/
inductive ChromaMean where
  | exact
  | integer (roundUp : Nat → Bool)

/-- The code of `1500 + 800*avg/255` Hz for two channel values of sum `s` (R191): `765000 + 800*s` for the exact mean, and
`765000 + 1600*m` for an integer mean `m` (spec/91_not_in_source.md N7). Of an even sum every reading is the exact mean. -/
def ChromaMean.code (mean : ChromaMean) (s : Nat) : Nat :=
  match mean with
  | .exact => avgCode s
  | .integer roundUp => lumaCode (if s % 2 = 1 ∧ roundUp s then s / 2 + 1 else s / 2)

/-- What the source leaves open about the host (spec/91_not_in_source.md N4 to N9). -/
structure HostParams where
  /-- The header's table, fixed and the same at every rate (R187; N4). -/
  headerTable   : List HeaderTone
  /-- Whether a header count that is not an integer goes up to the next one: of the leader (0) and of each tone of the
  table (1, 2, ...) (R187; N5). -/
  headerRoundUp : Nat → Rat → Bool
  /-- Whether `tick` of the luma scan starts at 0 or at 1 (R189; N9). -/
  tickOrigin    : Fin 2
  /-- Whether the tie `m + 1/2` of the column selection goes up to `m + 1` (R189; N9). -/
  tieUp         : Nat → Bool
  /-- `x0` of the chroma scan at a tick, of `uv_ticks` (R191; N6). -/
  chromaColumn  : Nat → Nat → Nat
  /-- How two chroma values are averaged (R191; N7). -/
  mean          : ChromaMean

/-- The number of samples of a duration given as a fraction of the rate: the product when it is an integer, and one of the
two integers beside it otherwise; `part` is the leader or a tone of the table (R187; N5). -/
def fractionCount (hp : HostParams) (part : Nat) (rate : Rate) (fraction : Rat) : Nat :=
  let x : Rat := rate.toNat * fraction
  if hp.headerRoundUp part x then ⌈x⌉.toNat else ⌊x⌋.toNat

/-- The leader: 0 Hz for `rate*0.3` samples (R187). -/
def leader (hp : HostParams) (rate : Rate) : List FreqCode := List.replicate (fractionCount hp 0 rate (3 / 10)) 0#32

/-- The header: the leader, and after it the tones of the table in their order (R187). -/
def header (hp : HostParams) (rate : Rate) : List FreqCode :=
  leader hp rate ++ (hp.headerTable.zipIdx 1).flatMap fun t =>
    List.replicate (fractionCount hp t.2 rate t.1.fraction) (BitVec.ofNat 32 (hzCode t.1.tone.hertz))

/-- The integer nearest to `a/b`, a tie by the parameter (R189). -/
def roundDiv (tieUp : Nat → Bool) (a b : Nat) : Nat :=
  let m := a / b
  if 2 * (a % b) < b then m
  else if 2 * (a % b) = b then (if tieUp m then m + 1 else m)
  else m + 1

/-- The six tick counts an Encoder keeps, under their names in the source (R185; spec/10_state.md R31). -/
structure SegmentCounts where
  horizontalSyncTicks : Nat
  syncPorchTicks      : Nat
  porchTicks          : Nat
  separatorTicks      : Nat
  yTicks              : Nat
  uvTicks             : Nat
  deriving DecidableEq, Repr

/-- The count kept for a segment. -/
def SegmentCounts.count (c : SegmentCounts) : Segment → Nat
  | .hsync => c.horizontalSyncTicks
  | .sporch => c.syncPorchTicks
  | .porch => c.porchTicks
  | .sep => c.separatorTicks
  | .yscan => c.yTicks
  | .uvscan => c.uvTicks

/-- What `TICKS` gives for a segment at a rate (spec/41_timing_converter.md R124). -/
def segmentTicks (rate : Rate) (seg : Segment) : Nat := tickCount rate (segmentCode seg)

/-- The six counts at a rate (R185). -/
def segmentCounts (rate : Rate) : SegmentCounts :=
  { horizontalSyncTicks := segmentTicks rate .hsync, syncPorchTicks := segmentTicks rate .sporch,
    porchTicks := segmentTicks rate .porch, separatorTicks := segmentTicks rate .sep,
    yTicks := segmentTicks rate .yscan, uvTicks := segmentTicks rate .uvscan }

/-- A constant tone (R188). -/
def tone (counts : SegmentCounts) (seg : Segment) (f : Nat) : List FreqCode :=
  List.replicate (counts.count seg) (BitVec.ofNat 32 f)

/-- Runs a fallible function over `0 .. n-1`, in order. -/
def collect (f : Nat → Except ImageError FreqCode) : Nat → Except ImageError (List FreqCode)
  | 0 => .ok []
  | n + 1 =>
    match collect f n, f n with
    | .ok fs, .ok c => .ok (fs ++ [c])
    | .error e, _ => .error e
    | .ok _, .error e => .error e

/-- The luma scan of row `y` (R189, R190): column `round(319 * tick/y_ticks)`, code `765000 + 1600*Y`. -/
def lumaScan (hp : HostParams) (img : Image) (counts : SegmentCounts) (y : Nat) : Except ImageError (List FreqCode) :=
  let n := counts.yTicks
  collect (fun tick =>
    match img.pixelAt (roundDiv hp.tieUp ((imageWidth - 1) * (hp.tickOrigin.val + tick)) n) y with
    | .ok p => .ok (BitVec.ofNat 32 (lumaCode p.y.toNat))
    | .error e => .error e) n

/-- A chroma scan of row `y` of the channel `ch` (R191): the average of columns `x0` and `min(x0+1, 319)`. -/
def chromaScan (hp : HostParams) (img : Image) (counts : SegmentCounts) (ch : Pixel → Channel) (y : Nat) :
    Except ImageError (List FreqCode) :=
  let n := counts.uvTicks
  collect (fun tick =>
    let x0 := hp.chromaColumn (hp.tickOrigin.val + tick) n
    match img.pixelAt x0 y, img.pixelAt (min (x0 + 1) (imageWidth - 1)) y with
    | .ok p, .ok q => .ok (BitVec.ofNat 32 (hp.mean.code ((ch p).toNat + (ch q).toNat)))
    | .error e, _ => .error e
    | .ok _, .error e => .error e) n

/-- One half of a row pair: sync, sync porch, luma, separator, porch, chroma (R188 a to f, and g to k). -/
def halfPair (hp : HostParams) (img : Image) (counts : SegmentCounts) (y sepHz : Nat) (ch : Pixel → Channel) :
    Except ImageError (List FreqCode) :=
  match lumaScan hp img counts y, chromaScan hp img counts ch y with
  | .ok luma, .ok chroma =>
    .ok (tone counts .hsync (hzCode 1200) ++ tone counts .sporch (hzCode 1500) ++ luma ++
      tone counts .sep (hzCode sepHz) ++ tone counts .porch (hzCode 1900) ++ chroma)
  | .error e, _ => .error e
  | .ok _, .error e => .error e

/-- The row pair `y`, `y+1` (R188): separator 1500 Hz and V of row `y`, then separator 2300 Hz and U of row `y+1`. -/
def rowPair (hp : HostParams) (img : Image) (counts : SegmentCounts) (y : Nat) : Except ImageError (List FreqCode) :=
  match halfPair hp img counts y 1500 Pixel.v, halfPair hp img counts (y + 1) 2300 Pixel.u with
  | .ok a, .ok b => .ok (a ++ b)
  | .error e, _ => .error e
  | .ok _, .error e => .error e

/-- The first `n` row pairs, `y = 0, 2, ...` (R188). -/
def rowPairs (hp : HostParams) (img : Image) (counts : SegmentCounts) : Nat → Except ImageError (List FreqCode)
  | 0 => .ok []
  | n + 1 =>
    match rowPairs hp img counts n, rowPair hp img counts (2 * n) with
    | .ok fs, .ok c => .ok (fs ++ c)
    | .error e, _ => .error e
    | .ok _, .error e => .error e

/-- The frequency codes of one encode, one per sample: the header, then 120 row pairs (R186, R187, R188). -/
def frequencies (hp : HostParams) (img : Image) (counts : SegmentCounts) (rate : Rate) :
    Except ImageError (List FreqCode) :=
  match rowPairs hp img counts (imageHeight / 2) with
  | .ok fs => .ok (header hp rate ++ fs)
  | .error e => .error e

/-- The samples of one row pair, by the counts of the six segments (R192). -/
def perPairLength (rate : Rate) : Nat :=
  2 * (segmentTicks rate .hsync + segmentTicks rate .sporch + segmentTicks rate .yscan + segmentTicks rate .sep +
    segmentTicks rate .porch) + 2 * segmentTicks rate .uvscan

/-- The commands of an Encoder's construction (R185): `OSCNEW` and the six `TICKS` with one rate. -/
def constructionCommands (rate : Rate) : List Instr :=
  [ .oscnew rate, .ticks rate (segmentCode .hsync), .ticks rate (segmentCode .sporch),
    .ticks rate (segmentCode .porch), .ticks rate (segmentCode .sep), .ticks rate (segmentCode .yscan),
    .ticks rate (segmentCode .uvscan) ]

/-- What the host can fail with (log entry 22). -/
inductive HostError where
  /-- The Image was not built, or a lookup in it was out of range (R183, R184). -/
  | image (e : ImageError)
  /-- The host was given no positive rate, which it owes the block (R193). -/
  | rateNotPositive
  /-- The block answered a command with this status, not `OK`. -/
  | notOk (status : BitVec 4)
  /-- The block gave no response, which no rule allows (R194). -/
  | noResponse
  /-- The one sequence of samples of this Encoder has been taken already (R185). -/
  | consumed
  deriving DecidableEq, Repr

/-- The commands of the encode of an Image (R185, R254): the construction, then one `OSCTICK` per sample. The host owes the
block a positive rate (R193); that it refuses rate 0 and issues nothing is the model's choice (log entry 22). -/
def imageCommands (hp : HostParams) (img : Image) (rate : Rate) : Except HostError (List Instr) :=
  if rate = 0#32 then .error .rateNotPositive
  else match frequencies hp img (segmentCounts rate) rate with
    | .error e => .error (.image e)
    | .ok fs => .ok (constructionCommands rate ++ fs.map Instr.osctick)

/-- The commands of one documented encode from what an Image construction gave (R254): `CSC` for every pixel, then those of
the Image. After a failed construction the host issues no command (R184). -/
def commandsFrom (built : Except ImageError Image) (hp : HostParams) (rgb : List Byte) (rate : Rate) :
    Except HostError (List Instr) :=
  match built with
  | .error e => .error (.image e)
  | .ok img =>
    match imageCommands hp img rate with
    | .error e => .error e
    | .ok cmds => .ok (cscCommands rgb ++ cmds)

/-- The commands of one documented encode of a raw buffer (R182, R254). -/
def encodeCommands (hp : HostParams) (rgb : List Byte) (rate : Rate) : Except HostError (List Instr) :=
  commandsFrom (buildImage rgb) hp rgb rate

/-- The commands of one documented encode of a decoded image of stated dimensions (R182, R254). -/
def encodeDecodedCommands (hp : HostParams) (width height : Nat) (rgb : List Byte) (rate : Rate) :
    Except HostError (List Instr) :=
  commandsFrom (buildDecoded width height rgb) hp rgb rate

/-- The host issues one command to the block and takes its response, which must be `OK` (R194). -/
def ask (i : Instr) (s : State) : Except HostError (Word × State) :=
  match perform (encode i) s with
  | .next t =>
    match t.responses.getLast? with
    | some rsp => if statusField rsp = Status.ok.code then .ok (rsp, t) else .error (.notOk (statusField rsp))
    | none => .error .noResponse
  | .fault _ => .error .noResponse
  | .refused _ => .error .noResponse

/-- A row of commands issued one after the other, with their responses (R186, R193). -/
def askAll : List Instr → State → Except HostError (List Word × State)
  | [], s => .ok ([], s)
  | i :: is, s =>
    match ask i s with
    | .error e => .error e
    | .ok (rsp, t) =>
      match askAll is t with
      | .error e => .error e
      | .ok (rsps, u) => .ok (rsp :: rsps, u)

/-- An Encoder: the Image and the rate it was made with, the six counts it keeps, and whether its one sequence of samples has
been taken (R185). Its oscillator is the block's. -/
structure Encoder where
  image    : Image
  rate     : Rate
  counts   : SegmentCounts
  consumed : Bool
  deriving DecidableEq, Repr

/-- `new(image, rate_hz) -> Encoder` (R185): `OSCNEW` and the six `TICKS` with one rate, which must be positive (R193; the
refusal of rate 0 is log entry 22); the six counts are the payloads of the block's responses. -/
def Encoder.new (img : Image) (rate : Rate) (s : State) : Except HostError (Encoder × State) :=
  if rate = 0#32 then .error .rateNotPositive
  else match askAll (constructionCommands rate) s with
    | .error e => .error e
    | .ok ([_, hsync, sporch, porch, sep, yscan, uvscan], t) =>
      .ok ({ image := img, rate := rate, consumed := false,
             counts :=
               { horizontalSyncTicks := (payloadField hsync).toNat, syncPorchTicks := (payloadField sporch).toNat,
                 porchTicks := (payloadField porch).toNat, separatorTicks := (payloadField sep).toNat,
                 yTicks := (payloadField yscan).toNat, uvTicks := (payloadField uvscan).toNat } }, t)
    | .ok _ => .error .noResponse

/-- The lazy sequence of samples: the frequencies not yet fed to the block (R185, R195). -/
structure Waveform where
  remaining : List FreqCode
  deriving DecidableEq, Repr

/-- `encode() -> lazy sequence of i16 samples` (R185): it issues no command by itself, and it is taken once; re-encoding
requires a fresh Encoder. -/
def Encoder.encode (hp : HostParams) (enc : Encoder) : Except HostError (Waveform × Encoder) :=
  if enc.consumed then .error .consumed
  else match frequencies hp enc.image enc.counts enc.rate with
    | .error e => .error (.image e)
    | .ok fs => .ok ({ remaining := fs }, { enc with consumed := true })

/-- `next()` of the sequence (R195): the next frequency is fed to the block's `OSCTICK`, and its sample is the element; none
when the sequence has ended. -/
def Waveform.next (w : Waveform) (s : State) : Except HostError (Option (Sample × Waveform × State)) :=
  match w.remaining with
  | [] => .ok none
  | f :: fs =>
    match ask (.osctick f) s with
    | .error e => .error e
    | .ok (rsp, t) => .ok (some (sampleField rsp, { remaining := fs }, t))

/-- The whole output of the sequence: the concatenation of all oscillator outputs, in order (R186). -/
def Waveform.samples (w : Waveform) (s : State) : Except HostError (List Sample × State) :=
  match askAll (w.remaining.map Instr.osctick) s with
  | .error e => .error e
  | .ok (rsps, t) => .ok (rsps.map sampleField, t)

/-- The output bytes of a row of `OSCTICK` responses: the samples in order, each low byte first (R186, R193;
spec/20_memory.md R45). -/
def waveformBytes (rsps : List Word) : List Byte := rsps.flatMap fun rsp => sampleBytes (sampleField rsp)

end Sys2Proof.Machine
end

