-- ==== Sys2Proof/Machine/Reference.lean ====
section
/-! DEFINITION. The meaning over the real numbers that the spec gives the oscillator's state and output
(spec/42_oscillator.md R143, R146, R151; spec/00_scope.md R9). These are the terms in which statements say what the
evaluated carrier of Sys2Proof/Machine/Trig.lean and NumberSystem.lean stands for; no step evaluates them. -/

namespace Sys2Proof.Machine

/-- `Z0` as a complex number (R141). -/
noncomputable def startValue (z0 : Config.StartValue) : ℂ :=
  ((z0.re : ℂ) + (z0.im : ℂ) * Complex.I) / (z0.den : ℂ)

/-- The phase in radians, `2*pi*num/den`. -/
noncomputable def Phase.angle (ph : Phase) : ℝ := 2 * Real.pi * ((ph.num : ℝ) / (ph.den : ℝ))

/-- The complex state a carrier stands for: `Z0 * exp(i * 2*pi*P)` (R146, R159). -/
noncomputable def Phase.value (z0 : Config.StartValue) (ph : Phase) : ℂ :=
  startValue z0 * Complex.exp ((ph.angle : ℂ) * Complex.I)

/-- `Z.RE` (R21, R27). -/
noncomputable def Phase.re (z0 : Config.StartValue) (ph : Phase) : ℝ := (ph.value z0).re

/-- `Z.IM` (R21, R27). -/
noncomputable def Phase.im (z0 : Config.StartValue) (ph : Phase) : ℝ := (ph.value z0).im

/-- `theta = (F/510) * (2*pi/RATE)` (R143). -/
noncomputable def theta (f : FreqCode) (rate : Rate) : ℝ :=
  ((f.toNat : ℝ) / 510) * (2 * Real.pi / (rate.toNat : ℝ))

/-- `rha` of a real number: to nearest, a tie away from zero (R9, R151). -/
noncomputable def rhaReal (x : ℝ) : ℤ := if 0 ≤ x then ⌊x + 1 / 2⌋ else -⌊-x + 1 / 2⌋

/-- `32767 * Re(Z)`, what `rha` rounds to the sample (R143, R146). -/
noncomputable def outputValue (z0 : Config.StartValue) (ph : Phase) : ℝ := ph.re z0 * 32767

/-- `clamp(x) = trunc0(min(255, max(0, x)))` of a rational number, `trunc0` rounding toward zero (R9). -/
def clampRat (x : ℚ) : ℤ :=
  let m := min 255 (max 0 x)
  if 0 ≤ m then ⌊m⌋ else ⌈m⌉

/-- `EPS_MAG` as a real number (R8). -/
noncomputable def epsMag (p : Config.Params) : ℝ := (p.epsNum : ℝ) / (p.epsDen : ℝ)

/-- The number system of the reference semantics, the real numbers with `K = 2*pi/RATE`, the real cosine and sine, the
complex product and `rha(32767 * Z.RE)` (R143, R152; R22). -/
noncomputable def NumberSystem.reals : NumberSystem ℝ ℝ where
  kOf rate := 2 * Real.pi / (rate.toNat : ℝ)
  rot f k := (Real.cos ((f.toNat : ℝ) / 510 * k), Real.sin ((f.toNat : ℝ) / 510 * k))
  cmul z r := (z.1 * r.1 - z.2 * r.2, z.1 * r.2 + z.2 * r.1)
  scaleRound x := rhaReal (x * 32767)

/-- `Z0` as a value of the real numbers (R141). -/
noncomputable def realStart (z0 : Config.StartValue) : ℝ × ℝ := ((startValue z0).re, (startValue z0).im)

/-- The magnitude of a complex state, its parts read as the real numbers they stand for. -/
noncomputable def magnitude {N : Type} (val : N → ℝ) (z : N × N) : ℝ := Real.sqrt (val z.1 ^ 2 + val z.2 ^ 2)

/-- The contract a number system must meet, and the whole of what may be assumed of one (R152): the magnitude of `Z` stays
within `EPS_MAG` of 0.707 for all ticks, and samples stay within ±32767. `val` reads a number of the system as the real
number it stands for. -/
structure NumberSystem.Contract {K N : Type} (n : NumberSystem K N) (z0 : N × N) (p : Config.Params) (val : N → ℝ) :
    Prop where
  drift : ∀ (rate : Rate) (fs : List FreqCode), rate ≠ 0#32 →
    |magnitude val ((n.carrier z0).after rate fs) - 0.707| ≤ epsMag p
  samples : ∀ (rate : Rate) (fs : List FreqCode), rate ≠ 0#32 → fs ≠ [] →
    |(n.carrier z0).sample ((n.carrier z0).after rate fs)| ≤ 32767

end Sys2Proof.Machine
end

