-- ==== Sys2Proof/Safety.lean ====
section
/-! DEFINITION. What a safe state and a safe run are, in the terms statements use. -/

namespace Sys2Proof.Machine

/-- The legal states of the block (spec/10_state.md R21, R26, R27, R28): with `VALID` = 0, `RATE` and `Z` hold no value;
with `VALID` = 1, `RATE` is a legal rate and `Z` is a phase of `[0, 1)` in turns over `510*RATE` (R146, R159). -/
def State.legal (s : State) : Bool :=
  match s.valid, s.rate, s.z with
  | false, none, none => true
  | true, some rate, some z => rate != 0#32 && z.den == turnCodes rate && decide (z.num < z.den)
  | _, _, _ => false

/-- The invariant: the block is in a legal state. -/
abbrev State.Inv (s : State) : Prop := s.legal = true

/-- A response word as the spec allows it (spec/30_encoding.md R70, R71): the status is one of the four codes, bits
59:48 are zero, and the payload is zero when the status is not `OK`. -/
def responseOk (rsp : Word) : Bool :=
  decide ((statusField rsp).toNat ≤ 3) && bits rsp 48 12 == 0#12 &&
    (statusField rsp == Status.ok.code || payloadField rsp == 0#48)

/-- Every response produced so far has the form the spec allows. -/
abbrev State.ResponsesOk (s : State) : Prop := s.responses.all responseOk = true

/-- No command has been answered with an error: the record spec/60_exceptions.md R227 asks a model to keep. -/
def State.noErrorResponse (s : State) : Bool :=
  s.responses.all fun rsp => statusField rsp == Status.ok.code

/-- The status a command word is answered with, by the fixed order of the checks (spec/60_exceptions.md R224): the opcode,
the `zero` field, the rate of `OSCNEW`, `VALID` for `OSCTICK`. -/
def checkedStatus (w : Word) (s : State) : Status :=
  let op := (opField w).toNat
  if op < 1 ∨ 4 < op then .illegal
  else if (op = 1 ∧ bits w 24 36 ≠ 0#36) ∨ (op = 2 ∧ bits w 48 12 ≠ 0#12) ∨ (3 ≤ op ∧ bits w 32 28 ≠ 0#28) then .illegal
  else if op = 3 ∧ bits w 0 32 = 0#32 then .badRate
  else if op = 4 ∧ s.valid = false then .uninit
  else .ok

/-- The status a command word is answered with while `VALID` is 1: `OSCTICK` never fails then (R194, R224). -/
def statusWhenValid (w : Word) : Status :=
  match decode w with
  | .error _ => .illegal
  | .ok i => if i = .oscnew 0#32 then .badRate else .ok

/-- A run of commands from `s`: each is performed completely before the next (spec/20_memory.md R48). -/
def runCommands : List Word → State → Result
  | [], s => .next s
  | w :: ws, s =>
    match perform w s with
    | .next s' => runCommands ws s'
    | .fault r => .fault r
    | .refused r => .refused r

end Sys2Proof.Machine
end

