-- ==== Sys2Proof/Certificates/Slice0/Obligations.lean ====
section
/-! DEFINITION. The statements for the provers. Each docstring names the rule of spec/ it formalises. -/

open Sys2Proof Sys2Proof.Machine

/-! Encoding and the step -/

/-- A step runs the decoded command: the oldest presented input is taken out of the queue, a word that decodes to `i` is
`exec i`, any other word is answered `ILLEGAL` (30_encoding.md R68), the reset event is `resetEvent`, and with nothing
presented nothing changes (60_exceptions.md R231; that this is a step of the model is its own choice, log entry 1).
`withFetchWord` presents the very next word (the model's own choice, log entry 2). -/
def Obligations.StepRunsDecodedCommand : Prop :=
  ∀ (s : State) (rest : List Input),
    (∀ w i, s.inputs = .command w :: rest → decode w = .ok i → step s = exec i { s with inputs := rest }) ∧
    (∀ w r, s.inputs = .command w :: rest → decode w = .error r →
      step s = .next (respond .illegal 0#48 { s with inputs := rest })) ∧
    (s.inputs = .reset :: rest → step s = .next (resetEvent { s with inputs := rest })) ∧
    (s.inputs = [] → step s = .next s) ∧
    (∀ nbits w i, decodeTableWord nbits w = some i → step (s.withFetchWord nbits w) = exec i s)

/-- R78: the ten worked encodings, from the assembler text to the word, and back from the word to the command; and
the answer the rule gives for `OSCNEW 0`. -/
def Obligations.WrittenOutWordsDecode : Prop :=
  (∀ e ∈ [ ("CSC 255, 255, 255", 0x1000000000FFFFFF#64, Instr.csc 255#8 255#8 255#8),
          ("CSC 0, 0, 0", 0x1000000000000000#64, Instr.csc 0#8 0#8 0#8),
          ("CSC 255, 0, 0", 0x1000000000FF0000#64, Instr.csc 255#8 0#8 0#8),
          ("TICKS 48000, 90", 0x2000005A0000BB80#64, Instr.ticks 48000#32 90#16),
          ("TICKS.HSYNC 48000", 0x2000005A0000BB80#64, Instr.ticks 48000#32 90#16),
          ("TICKS 44100, 880", 0x200003700000AC44#64, Instr.ticks 44100#32 880#16),
          ("TICKS.YSCAN 44100", 0x200003700000AC44#64, Instr.ticks 44100#32 880#16),
          ("OSCNEW 48000", 0x300000000000BB80#64, Instr.oscnew 48000#32),
          ("OSCNEW 8000", 0x3000000000001F40#64, Instr.oscnew 8000#32),
          ("OSCNEW 0", 0x3000000000000000#64, Instr.oscnew 0#32),
          ("OSCTICK 790600", 0x40000000000C1048#64, Instr.osctick 790600#32),
          ("OSCTICK.LUMA 16", 0x40000000000C1048#64, Instr.osctick 790600#32),
          ("OSCTICK 1020000", 0x40000000000F9060#64, Instr.osctick 1020000#32),
          ("OSCTICK.HZ 2000", 0x40000000000F9060#64, Instr.osctick 1020000#32) ],
    assembleLine e.1.toList = .ok (some e.2.1) ∧ encode e.2.2 = e.2.1 ∧ decode e.2.1 = .ok e.2.2) ∧
  ∀ s : State, perform 0x3000000000000000#64 s = .next (respond .badRate 0#48 s)

/-- Decode and encode agree on every command, as a word and on a byte transport, whatever bytes follow (R61 to R66, R47). -/
def Obligations.EncodedCommandDecodesBack : Prop :=
  ∀ (i : Instr) (rest : List Byte),
    i.wf = true ∧ decode (encode i) = .ok i ∧ decodeBytes (encodeBytes i ++ rest) = .ok (i, rest)

/-- A word that decodes to a command is that command's encoding: each command has one word, and no bit of a word is
ignored (R61, R68). -/
def Obligations.DecodedWordIsTheEncoding : Prop :=
  ∀ (w : Word) (i : Instr), decode w = .ok i → encode i = w

/-- R67: every word either selects exactly one row of the opcode map, and decodes to that row's command, or selects none
and is illegal. -/
def Obligations.WordSelectsOneRowOrIsIllegal : Prop :=
  ∀ w : Word,
    (opcodeMap.filter fun row => row.selects w).map Row.mnemonic =
      match decode w with
      | .ok i => [i.mnemonic]
      | .error _ => []

/-- R68: the illegal words, by opcode and by `zero` field, and that each is answered `ILLEGAL` with no state change. -/
def Obligations.IllegalWordsRefused : Prop :=
  (∀ w : Word,
    (((opField w).toNat = 0 ∨ 5 ≤ (opField w).toNat ∨
        (opField w = 1#4 ∧ bits w 24 36 ≠ 0#36) ∨ (opField w = 2#4 ∧ bits w 48 12 ≠ 0#12) ∨
        (opField w = 3#4 ∧ bits w 32 28 ≠ 0#28) ∨ (opField w = 4#4 ∧ bits w 32 28 ≠ 0#28)) ↔
      ∃ r, decode w = .error r) ∧
    ((∃ r, decode w = .error r) → ∀ s : State, perform w s = .next (respond .illegal 0#48 s))) ∧
  (∃ r, decode 0x0000000000000000#64 = .error r) ∧ (∃ r, decode 0xFFFFFFFFFFFFFFFF#64 = .error r)

/-- R224: the first failing check decides the status, in the fixed order of the rule, and every command word is answered. -/
def Obligations.FirstFailingCheckDecides : Prop :=
  ∀ (w : Word) (s : State), s.Inv →
    ∃ (payload : Payload) (t : State), perform w s = .next t ∧
      t.responses = s.responses ++ [responseWord (checkedStatus w s) payload]

/-- R70: every command, legal or not, produces exactly one response word, with the three fields of the rule. -/
def Obligations.OneResponsePerCommand : Prop :=
  ∀ (s : State) (w : Word) (rest : List Input), s.Inv → s.inputs = .command w :: rest →
    ∃ (t : State) (rsp : Word) (st : Status) (payload : Payload), step s = .next t ∧ t.inputs = rest ∧
      t.responses = s.responses ++ [rsp] ∧ statusField rsp = st.code ∧ bits rsp 48 12 = 0#12 ∧
      payloadField rsp = payload ∧ (st ≠ .ok → payload = 0#48)

/-- R48 in terms of the step: the queue is taken in the order presented, each command completely before the next.
The queue is log entry 1. -/
def Obligations.QueueRunsInOrder : Prop :=
  ∀ (ws : List Word) (s : State) (rest : List Input),
    core.run ws.length { s with inputs := ws.map Input.command ++ rest } = runCommands ws { s with inputs := rest }

/-- R260: every prefix of a run is a run, and the run goes on from the state the prefix left. -/
def Obligations.RunPrefixIsARun : Prop :=
  ∀ (ws vs : List Word) (s t : State), runCommands (ws ++ vs) s = .next t →
    ∃ u, runCommands ws s = .next u ∧ runCommands vs u = .next t ∧ u.responses.length = s.responses.length + ws.length

/-! Invariants and reset -/

/-- From every legal state a step gives a legal state. The carrier of `Z` is log entry 4. -/
def Obligations.LegalStateKeptByStep : Prop :=
  ∀ s t : State, s.Inv → step s = .next t → t.Inv

/-- The state right after reset is legal. -/
def Obligations.ResetStateIsLegal : Prop := State.reset.Inv

/-- R259: from a legal state every step answers a next state; no command hangs, faults or is refused. -/
def Obligations.EveryStepAnswers : Prop := ∀ s : State, s.Inv → ∃ t, step s = .next t

/-- Every response word keeps the form of R70 and R71: a status of 0 to 3, zero bits, and payload 0 with an error. -/
def Obligations.ResponsesKeepTheirForm : Prop :=
  ∀ s t : State, s.ResponsesOk → step s = .next t → t.ResponsesOk

/-- R252: the reset values of every piece of the block's state. -/
def Obligations.ResetValues : Prop :=
  State.reset.valid = false ∧ State.reset.rate = none ∧ State.reset.z = none

/-- R250: the reset event, taken between two commands: `VALID` is cleared, the rest of the block holds no value, and no
response word is produced. -/
def Obligations.ResetEventEffect : Prop :=
  ∀ (s : State) (rest : List Input), s.inputs = .reset :: rest →
    ∃ t, step s = .next t ∧ t.valid = false ∧ t.rate = none ∧ t.z = none ∧ t.responses = s.responses ∧ t.inputs = rest

/-! Registers, errors and frames -/

/-- R25: `VALID` is set by an `OSCNEW` that completes without error, no other command writes it, nothing but reset clears
it, and `OSCTICK` answers `UNINIT` when it is 0; and no condition code: what a command answers depends on what came before
through the block's state alone. -/
def Obligations.ValidFlagRule : Prop :=
  (∀ (rate : Rate) (s t : State), rate ≠ 0#32 → exec (.oscnew rate) s = .next t → t.valid = true) ∧
  (∀ (i : Instr) (s t : State), (∀ rate, rate ≠ 0#32 → i ≠ .oscnew rate) → exec i s = .next t → t.valid = s.valid) ∧
  (∀ s t : State, step s = .next t → s.valid = true → t.valid = false → ∃ rest, s.inputs = .reset :: rest) ∧
  State.reset.valid = false ∧
  (∀ (f : FreqCode) (s : State), s.valid = false → exec (.osctick f) s = .next (respond .uninit 0#48 s)) ∧
  (∀ (i : Instr) (s s' t : State), s.block = s'.block → exec i s = .next t →
    ∃ (rsp : Word) (t' : State), exec i s' = .next t' ∧ t.responses = s.responses ++ [rsp] ∧
      t'.responses = s'.responses ++ [rsp])

/-- `RATE` is written only by `OSCNEW`, with the command's rate, and only with a legal value (R26). -/
def Obligations.RateWrittenOnlyByOscnew : Prop :=
  ∀ (i : Instr) (s t : State), exec i s = .next t →
    (t.rate = s.rate ∨ ∃ rate, rate ≠ 0#32 ∧ i = .oscnew rate ∧ t.rate = some rate) ∧
    ((∀ rate, i ≠ .oscnew rate) → t.rate = s.rate)

/-- R222: a command that errs has had no effect at all: the block keeps its values and the response is the code with
payload 0. -/
def Obligations.ErringCommandHasNoEffect : Prop :=
  ∀ (w : Word) (s t : State), perform w s = .next t →
    ∃ rsp, t.responses = s.responses ++ [rsp] ∧
      (statusField rsp ≠ Status.ok.code → t.block = s.block ∧ t.inputs = s.inputs ∧
        ∃ e : Error, rsp = responseWord e.status 0#48)

/-- The frame of every command: what `CSC`, `TICKS`, `OSCNEW` and `OSCTICK` leave unchanged when they answer. There is no
memory. `OSCNEW` writes `RATE`, `Z` and `VALID`, `OSCTICK` writes `Z`, the others write nothing of the block
(R100, R120, R140, R143). -/
def Obligations.CommandFrames : Prop :=
  ∀ (i : Instr) (s t : State), exec i s = .next t →
    t.inputs = s.inputs ∧ (∃ rsp, t.responses = s.responses ++ [rsp]) ∧
    (∀ r g b, i = .csc r g b → t.block = s.block) ∧
    (∀ rate dn, i = .ticks rate dn → t.block = s.block) ∧
    (∀ f, i = .osctick f → t.valid = s.valid ∧ t.rate = s.rate) ∧
    (i = .oscnew 0#32 → t.block = s.block)

/-- The response and the new state of the block are a function of the block's state and the command word alone: not of the
responses before, nor of what is presented after (R42, R157). -/
def Obligations.AnswerDependsOnBlockAndWord : Prop :=
  ∀ (w : Word) (s s' t : State), s.block = s'.block → perform w s = .next t →
    ∃ (rsp : Word) (t' : State), perform w s' = .next t' ∧ t.block = t'.block ∧
      t.responses = s.responses ++ [rsp] ∧ t'.responses = s'.responses ++ [rsp]

/-- R194: every command gets exactly one response, `CSC` and `TICKS` never fail, and `OSCTICK` never fails once an `OSCNEW` has
succeeded, whatever words come after it, refused ones and illegal ones among them; the responses are a function of the
commands alone, and a run from any other state repeats them. -/
def Obligations.WhatTheHostMayRelyOn : Prop :=
  (∀ (r g b : Channel) (s : State), ∃ payload, exec (.csc r g b) s = .next (respond .ok payload s)) ∧
  (∀ (rate : Rate) (dn : DurCode) (s : State), ∃ payload, exec (.ticks rate dn) s = .next (respond .ok payload s)) ∧
  (∀ (rate : Rate) (ws : List Word) (s : State), rate ≠ 0#32 →
    ∃ (t : State) (rsps : List Word), runCommands (encode (.oscnew rate) :: ws) s = .next t ∧
      t.responses = s.responses ++ rsps ∧
      rsps.map statusField = Status.ok.code :: (ws.map fun w => (statusWhenValid w).code) ∧
      ∀ s' : State, ∃ t', runCommands (encode (.oscnew rate) :: ws) s' = .next t' ∧ t'.responses = s'.responses ++ rsps)

/-- R233: the model-level faults. (a) a read of `RATE` or `Z` that holds no value; (b) whatever carries `Z`, and so under any
number system, a sample outside -32768 to 32767; (c) a configuration that breaks a constraint is refused. Log entries 9
and 10. -/
def Obligations.ModelLevelFaults : Prop :=
  (∀ (f : FreqCode) (s : State), s.valid = true → (s.rate = none ∨ s.z = none) →
    exec (.osctick f) s = .fault .readWithoutValue) ∧
  (∀ (Z : Type) (p : Config.Params) (c : Carrier Z) (f : FreqCode) (b : Block Z) (rate : Rate) (z : Z),
    p.wf = true → b.valid = true → b.rate = some rate → b.z = some z →
    ¬ (-32768 ≤ c.sample (c.turn rate f z) ∧ c.sample (c.turn rate f z) ≤ 32767) →
    oscTick p c f b = .fault .sampleOutOfRange) ∧
  (∀ (Z : Type) (p : Config.Params) (c : Carrier Z) (rate : Rate) (f : FreqCode) (b : Block Z), p.wf = false →
    oscNew p c rate b = .refused .badConfiguration ∧ oscTick p c f b = .refused .badConfiguration) ∧
  (∀ p : Config.Params, p.wf = true → startValue p.z0 ≠ 0 ∧ ‖startValue p.z0‖ * 32767 < 32767.5)

/-- What a configuration may be: `Z0 != 0`, `| |Z0| - 0.707 | <= EPS_MAG`, `EPS_MAG < 32767.5/32767 - 0.707` (R141, R152;
the reading of the check is log entry 19). The configuration `exec` runs is one, and its `|Z0|` is 0.707. -/
def Obligations.ConfigurationConstraints : Prop :=
  (∀ p : Config.Params, p.wf = true ↔
    p.z0.den ≠ 0 ∧ p.epsDen ≠ 0 ∧ startValue p.z0 ≠ 0 ∧ |‖startValue p.z0‖ - 0.707| ≤ epsMag p ∧
      epsMag p < 32767.5 / 32767 - 0.707) ∧
  Config.params.wf = true ∧ ‖startValue Config.params.z0‖ = 0.707

/-! The colour transform -/

/-- R100 with the constants of R101, every literal read as the exact decimal fraction it spells (R102): the word of format C
answers `OK` with (y, u, v) and writes no state, for every r, g, b and in every state; a nonzero `zero` field is `ILLEGAL`;
and the worked example. -/
def Obligations.CscAnswersTheFormula : Prop :=
  ∀ (r g b : Channel) (s : State),
    let R : ℚ := r.toNat
    let G : ℚ := g.toNat
    let B : ℚ := b.toNat
    let y := clampRat (16 + 0.003906 * (65.738 * R + 129.057 * G + 25.064 * B))
    let v := clampRat (128 + 0.003906 * (112.439 * R - 94.154 * G - 18.285 * B))
    let u := clampRat (128 + 0.003906 * (-37.945 * R - 74.494 * G + 112.439 * B))
    exec (.csc r g b) s =
      .next (respond .ok (0#24 ++ BitVec.ofInt 8 y ++ BitVec.ofInt 8 u ++ BitVec.ofInt 8 v) s) ∧
    perform (0x1#4 ++ 0#36 ++ r ++ g ++ b) s = exec (.csc r g b) s ∧
    (∀ zero : BitVec 36, zero ≠ 0#36 → perform (0x1#4 ++ zero ++ r ++ g ++ b) s = .next (respond .illegal 0#48 s)) ∧
    perform 0x1000000000000000#64 s = .next { s with responses := s.responses ++ [0x0000000000108080#64] }

/-- R104: the range of the results over all inputs, and that the extremes are reached. Neither bound of `clamp` is ever
reached: it acts only as `floor`. -/
def Obligations.CscRangeLaw : Prop :=
  (∀ r g b : Channel,
    (16 ≤ (csc r g b).1.toNat ∧ (csc r g b).1.toNat ≤ 234) ∧
    (16 ≤ (csc r g b).2.1.toNat ∧ (csc r g b).2.1.toNat ≤ 239) ∧
    (16 ≤ (csc r g b).2.2.toNat ∧ (csc r g b).2.2.toNat ≤ 239) ∧
    ((csc r g b).1.toNat : ℤ) = (16 * 10 ^ 9 + 3906 * (65738 * (r.toNat : ℤ) + 129057 * g.toNat + 25064 * b.toNat)) / 10 ^ 9 ∧
    ((csc r g b).2.1.toNat : ℤ) = (128 * 10 ^ 9 + 3906 * (-37945 * (r.toNat : ℤ) - 74494 * g.toNat + 112439 * b.toNat)) / 10 ^ 9 ∧
    ((csc r g b).2.2.toNat : ℤ) = (128 * 10 ^ 9 + 3906 * (112439 * (r.toNat : ℤ) - 94154 * g.toNat - 18285 * b.toNat)) / 10 ^ 9) ∧
  (csc 0#8 0#8 0#8).1 = 16#8 ∧ (csc 255#8 255#8 255#8).1 = 234#8 ∧
  (csc 255#8 0#8 0#8).2.2 = 239#8 ∧ (csc 0#8 255#8 255#8).2.2 = 16#8 ∧
  (csc 0#8 0#8 255#8).2.1 = 239#8 ∧ (csc 255#8 255#8 0#8).2.1 = 16#8

/-- R105: on greys the chroma sums are exactly 0, u = v = 128, and y is the formula of the rule. -/
def Obligations.CscGreyLaw : Prop :=
  ∀ k : Channel,
    weighted vCoeff k k k = 0 ∧ weighted uCoeff k k k = 0 ∧
    (csc k k k).2.1 = 128#8 ∧ (csc k k k).2.2 = 128#8 ∧
    (csc k k k).1.toNat = 16 + 858769254 * k.toNat / 10 ^ 9

/-- R107: the final rounding is toward zero, downward for these values: y is the greatest integer not above the exact
value (and so for u and v), 234.986 gives 234, 127.85 gives 127. -/
def Obligations.CscRoundsDown : Prop :=
  (∀ r g b : Channel,
    let y : ℚ := 16 + 0.003906 * (65.738 * r.toNat + 129.057 * g.toNat + 25.064 * b.toNat)
    let v : ℚ := 128 + 0.003906 * (112.439 * r.toNat - 94.154 * g.toNat - 18.285 * b.toNat)
    let u : ℚ := 128 + 0.003906 * (-37.945 * r.toNat - 74.494 * g.toNat + 112.439 * b.toNat)
    (((csc r g b).1.toNat : ℚ) ≤ y ∧ y < (csc r g b).1.toNat + 1) ∧
    (((csc r g b).2.1.toNat : ℚ) ≤ u ∧ u < (csc r g b).2.1.toNat + 1) ∧
    (((csc r g b).2.2.toNat : ℚ) ≤ v ∧ v < (csc r g b).2.2.toNat + 1)) ∧
  clampRat 234.986 = 234 ∧ clampRat 127.85 = 127 ∧ (csc 0#8 0#8 0#8).2.1 = 128#8 ∧ (csc 1#8 0#8 0#8).2.1 = 127#8

/-- R106: black and white, as response words, in every state; and that two pixels share a response, so that the transform
has no inverse (R108). -/
def Obligations.CscBlackAndWhite : Prop :=
  ∀ s : State,
    exec (.csc 0#8 0#8 0#8) s = .next { s with responses := s.responses ++ [0x0000000000108080#64] } ∧
    exec (.csc 255#8 255#8 255#8) s = .next { s with responses := s.responses ++ [0x0000000000EA8080#64] } ∧
    exec (.csc 254#8 254#8 254#8) s = exec (.csc 255#8 255#8 255#8) s

/-- The payload layouts of R72, R73 and R74: each result field reads back from the response word, the rest of the payload
is zero, and the sample is not sign-extended. -/
def Obligations.PayloadLayouts : Prop :=
  (∀ y u v : Channel,
    let rsp := responseWord .ok (colourPayload y u v)
    statusField rsp = 0#4 ∧ bits rsp 24 24 = 0#24 ∧ bits rsp 16 8 = y ∧ bits rsp 8 8 = u ∧ bits rsp 0 8 = v) ∧
  (∀ (rate : Rate) (dn : DurCode), (payloadField (responseWord .ok (countPayload (tickCount rate dn)))).toNat = tickCount rate dn) ∧
  (∀ smp : Sample,
    let rsp := responseWord .ok (samplePayload smp)
    statusField rsp = 0#4 ∧ bits rsp 16 32 = 0#32 ∧ sampleField rsp = smp)

/-! The timing converter -/

/-- R120 and R121: the word of format T answers `OK` with `floor(rate * dn / 10000)`, exact, and writes no state, for every
rate and duration and in every state; a nonzero `zero` field is `ILLEGAL`; and the worked example. -/
def Obligations.TicksAnswersTheFloor : Prop :=
  ∀ (rate : Rate) (dn : DurCode) (s : State),
    exec (.ticks rate dn) s =
      .next (respond .ok (BitVec.ofInt 48 ⌊(rate.toNat : ℚ) * dn.toNat / 10000⌋) s) ∧
    ⌊(rate.toNat : ℚ) * dn.toNat / 10000⌋ = ((rate.toNat * dn.toNat / 10000 : ℕ) : ℤ) ∧
    perform (0x2#4 ++ 0#12 ++ dn ++ rate) s = exec (.ticks rate dn) s ∧
    (∀ zero : BitVec 12, zero ≠ 0#12 → perform (0x2#4 ++ zero ++ dn ++ rate) s = .next (respond .illegal 0#48 s)) ∧
    perform 0x2000005A0000BB80#64 s = .next { s with responses := s.responses ++ [0x00000000000001B0#64] }

/-- R122: the largest count is 28147068167, below 2^35, so the payload field never overflows. -/
def Obligations.TicksResultWidth : Prop :=
  (∀ (rate : Rate) (dn : DurCode), tickCount rate dn ≤ 28147068167) ∧ 28147068167 < 2 ^ 35 ∧
  28147068167 = (2 ^ 32 - 1) * 65535 / 10000 ∧ tickCount 4294967295#32 65535#16 = 28147068167

/-- R126: the count is non-decreasing in the rate and in the duration. -/
def Obligations.TicksMonotone : Prop :=
  (∀ (rate rate' : Rate) (dn : DurCode), rate.toNat ≤ rate'.toNat → tickCount rate dn ≤ tickCount rate' dn) ∧
  (∀ (rate : Rate) (dn dn' : DurCode), dn.toNat ≤ dn'.toNat → tickCount rate dn ≤ tickCount rate dn')

/-- R127: the truncation error is in [0, 1), counts do not add, and the sums at 44100 Hz. -/
def Obligations.TicksTruncationError : Prop :=
  (∀ (rate : Rate) (dn : DurCode),
    (0 : ℚ) ≤ (rate.toNat : ℚ) * dn.toNat / 10000 - tickCount rate dn ∧
    (rate.toNat : ℚ) * dn.toNat / 10000 - tickCount rate dn < 1) ∧
  (∀ (rate : Rate) (a b : DurCode), a.toNat + b.toNat < 65536 →
    tickCount rate a + tickCount rate b ≤ tickCount rate (a + b)) ∧
  (∃ (rate : Rate) (a b : DurCode), a.toNat + b.toNat < 65536 ∧
    tickCount rate a + tickCount rate b < tickCount rate (a + b)) ∧
  tickCount 44100#32 90#16 + tickCount 44100#32 30#16 + tickCount 44100#32 880#16 + tickCount 44100#32 45#16 +
    tickCount 44100#32 15#16 + tickCount 44100#32 440#16 = 6612 ∧ tickCount 44100#32 1500#16 = 6615

/-- R125: zero rate, zero duration and small products are accepted and answered 0. -/
def Obligations.TicksOfZero : Prop :=
  ∀ s : State,
    (∀ dn, exec (.ticks 0#32 dn) s = .next (respond .ok 0#48 s)) ∧
    (∀ rate, exec (.ticks rate 0#16) s = .next (respond .ok 0#48 s)) ∧
    exec (.ticks 1#32 9999#16) s = .next (respond .ok 0#48 s) ∧
    exec (.ticks 1#32 10000#16) s = .next (respond .ok 1#48 s) ∧
    exec (.ticks 666#32 (segmentCode .porch)) s = .next (respond .ok 0#48 s)

/-- R123 and R76: the duration of each named segment, its code, and the expansion of its pseudo-instruction. -/
def Obligations.SegmentDurations : Prop :=
  durationSeconds (segmentCode .hsync) = 0.009 ∧ durationSeconds (segmentCode .sporch) = 0.003 ∧
  durationSeconds (segmentCode .porch) = 0.0015 ∧ durationSeconds (segmentCode .sep) = 0.0045 ∧
  durationSeconds (segmentCode .yscan) = 0.088 ∧ durationSeconds (segmentCode .uvscan) = 0.044 ∧
  (∀ rate : Rate,
    expand (.segment .hsync rate.toNat) = some (.ticks rate 90#16) ∧
    expand (.segment .sporch rate.toNat) = some (.ticks rate 30#16) ∧
    expand (.segment .porch rate.toNat) = some (.ticks rate 15#16) ∧
    expand (.segment .sep rate.toNat) = some (.ticks rate 45#16) ∧
    expand (.segment .yscan rate.toNat) = some (.ticks rate 880#16) ∧
    expand (.segment .uvscan rate.toNat) = some (.ticks rate 440#16))

/-- R128: the table of counts, row by row. -/
def Obligations.TableOfCounts : Prop :=
  ([0, 1, 1111, 8000, 11025, 22050, 44100, 48000, 96000, 4294967295].map fun rate : Nat =>
    [90, 30, 15, 45, 880, 440, 3000].map fun dn : Nat => tickCount (BitVec.ofNat 32 rate) (BitVec.ofNat 16 dn)) =
  [ [0, 0, 0, 0, 0, 0, 0],
    [0, 0, 0, 0, 0, 0, 0],
    [9, 3, 1, 4, 97, 48, 333],
    [72, 24, 12, 36, 704, 352, 2400],
    [99, 33, 16, 49, 970, 485, 3307],
    [198, 66, 33, 99, 1940, 970, 6615],
    [396, 132, 66, 198, 3880, 1940, 13230],
    [432, 144, 72, 216, 4224, 2112, 14400],
    [864, 288, 144, 432, 8448, 4224, 28800],
    [38654705, 12884901, 6442450, 19327352, 377957121, 188978560, 1288490188] ]

/-! The oscillator -/

/-- R140: `OSCNEW` with a positive rate writes `RATE`, `Z` and `VALID` together, in every state, with `Z = Z0` as a complex
number, and answers `OK` with payload 0; with rate 0 it answers `BAD_RATE` and writes nothing (R142); the word of format N
is performed so, and a nonzero `zero` field is `ILLEGAL`; and the worked example. The `Z0` is that of log entry 5. -/
def Obligations.OscnewConstructs : Prop :=
  (∀ (rate : Rate) (s : State), rate ≠ 0#32 →
    ∃ z : Phase, z.value Config.params.z0 = startValue Config.params.z0 ∧
      exec (.oscnew rate) s =
        .next { valid := true, rate := some rate, z := some z, inputs := s.inputs,
                responses := s.responses ++ [0x0000000000000000#64] }) ∧
  (∀ s : State, exec (.oscnew 0#32) s = .next { s with responses := s.responses ++ [0x2000000000000000#64] }) ∧
  (∀ (rate : Rate) (s : State), perform (0x3#4 ++ 0#28 ++ rate) s = exec (.oscnew rate) s ∧
    ∀ zero : BitVec 28, zero ≠ 0#28 → perform (0x3#4 ++ zero ++ rate) s = .next (respond .illegal 0#48 s)) ∧
  (∀ s : State, ∃ z : Phase, z.value Config.params.z0 = startValue Config.params.z0 ∧
    perform 0x3000000000001F40#64 s =
      .next { valid := true, rate := some 8000#32, z := some z, inputs := s.inputs,
              responses := s.responses ++ [0x0000000000000000#64] })

/-- R156: `OSCNEW` may be issued at any time; a successful one discards `Z` and `RATE` and starts again from `Z0`, so what
was there before does not matter; a failed one discards nothing. The `Z0` is that of log entry 5. -/
def Obligations.OscnewStartsAgain : Prop :=
  (∀ (rate : Rate) (s s' t t' : State), rate ≠ 0#32 → exec (.oscnew rate) s = .next t → exec (.oscnew rate) s' = .next t' →
    t.block = t'.block ∧ t.valid = true ∧ t.rate = some rate ∧
      ∃ z, t.z = some z ∧ z.value Config.params.z0 = startValue Config.params.z0) ∧
  (∀ rate s, rate ≠ 0#32 → ∃ t, exec (.oscnew rate) s = .next t) ∧
  (∀ s t : State, exec (.oscnew 0#32) s = .next t → t.block = s.block)

/-- R145: a tick with `VALID` = 0 answers `UNINIT`, writes nothing and outputs no sample. -/
def Obligations.OsctickBeforeConstruction : Prop :=
  ∀ (f : FreqCode) (s : State), s.valid = false →
    exec (.osctick f) s = .next { s with responses := s.responses ++ [0x3000000000000000#64] }

/-- R143 over the real numbers, with R144 (rotate first, then output) and R154: in every legal state with `VALID` = 1 and
for every code, `OSCTICK` completes; the new `Z` is the complex product of the old one with `cos theta + i sin theta`; the sample is
`rha(re1 * 32767)` of the new state, in range, in bits 15:0; `RATE` and `VALID` are unchanged; with `VALID` = 0 it is
`UNINIT`; the word of format F is performed so, and a nonzero `zero` field is `ILLEGAL`; and the worked example.
`Z0` and the carrier are log entries 5 and 4. -/
def Obligations.OsctickRotatesAndAnswers : Prop :=
  (∀ (f : FreqCode) (s : State), s.valid = false → exec (.osctick f) s = .next (respond .uninit 0#48 s)) ∧
  (∀ (f : FreqCode) (s : State), perform (0x4#4 ++ 0#28 ++ f) s = exec (.osctick f) s ∧
    ∀ zero : BitVec 28, zero ≠ 0#28 → perform (0x4#4 ++ zero ++ f) s = .next (respond .illegal 0#48 s)) ∧
  (∃ (t u : State) (z z' : Phase),
    runCommands [0x3000000000001F40#64, 0x40000000000F9060#64] State.reset = .next t ∧ t.responses = [0#64, 0#64] ∧
    t.z = some z ∧ z.re Config.params.z0 = 0 ∧ z.im Config.params.z0 = 0.707 ∧
    perform 0x40000000000F9060#64 t = .next u ∧ u.responses = [0#64, 0#64, 0x000000000000A582#64] ∧
    u.z = some z' ∧ z'.re Config.params.z0 = -0.707 ∧ z'.im Config.params.z0 = 0) ∧
  ∀ (f : FreqCode) (s : State), s.Inv → s.valid = true →
    ∃ (rate : Rate) (z z' : Phase) (smp : ℤ), s.rate = some rate ∧ s.z = some z ∧
      exec (.osctick f) s = .next (respond .ok (samplePayload (BitVec.ofInt 16 smp)) { s with z := some z' }) ∧
      z'.re Config.params.z0 =
        z.re Config.params.z0 * Real.cos (theta f rate) - z.im Config.params.z0 * Real.sin (theta f rate) ∧
      z'.im Config.params.z0 =
        z.re Config.params.z0 * Real.sin (theta f rate) + z.im Config.params.z0 * Real.cos (theta f rate) ∧
      smp = rhaReal (z'.re Config.params.z0 * 32767) ∧ -32768 ≤ smp ∧ smp ≤ 32767

/-- The evaluated output step is exact: on every phase a legal state holds it is `rha(32767 * Re(Z))` over the real
numbers (R143, R159). `Z0` and the evaluation are log entries 5 and 8. -/
def Obligations.SampleIsExact : Prop :=
  ∀ (rate : Rate) (z : Phase), rate ≠ 0#32 → z.den = turnCodes rate →
    sampleOf Config.params.z0 z = rhaReal (outputValue Config.params.z0 z)

/-- R151: `rha` is the nearest integer with a tie away from zero, on the rational numbers the model computes with and on
the reals; and with the default `Z0` no tie can occur, at any phase. The default `Z0` is log entry 5. -/
def Obligations.RoundingOfTheSample : Prop :=
  (∀ x : ℝ, (rhaReal x : ℝ) = SignType.sign x * ⌊|x| + 1 / 2⌋) ∧
  (∀ (n : ℤ) (d : ℕ), d ≠ 0 → rha n d = rhaReal ((n : ℝ) / d)) ∧
  rhaReal 2.5 = 3 ∧ rhaReal (-2.5) = -3 ∧ rhaReal (-0.4) = 0 ∧
  (∀ (z : Phase) (m : ℤ), z.den ≠ 0 → outputValue Config.defaultStart z ≠ m + 1 / 2)

/-- R146: the closed form. After `OSCNEW rate` and then the ticks `fs`, `Z = Z0 * exp(i*2*pi*P)` with `P` the sum of the
codes over `510*rate`, modulo 1, and the n-th sample is the rounding of the rule's expression. First for every admissible
`Z0`, of the block over the real numbers; then for the machine, whose `Z0` is that of log entry 5. -/
def Obligations.ClosedForm : Prop :=
  let P (rate : Rate) (gs : List FreqCode) : ℝ := Int.fract (((gs.map BitVec.toNat).sum : ℝ) / (510 * (rate.toNat : ℝ)))
  let ended (Z0 : ℂ) (rate : Rate) (fs : List FreqCode) : ℂ := Z0 * Complex.exp (Complex.I * (2 * Real.pi * P rate fs : ℝ))
  let answers (Z0 : ℂ) (rate : Rate) (fs : List FreqCode) : List Word :=
    responseWord .ok 0#48 :: (List.range fs.length).map fun n =>
      responseWord .ok (samplePayload (BitVec.ofInt 16 (rhaReal (32767 *
        (Z0.re * Real.cos (2 * Real.pi * P rate (fs.take (n + 1))) - Z0.im * Real.sin (2 * Real.pi * P rate (fs.take (n + 1))))))))
  (∀ (p : Config.Params) (rate : Rate) (fs : List FreqCode) (b : Block (ℝ × ℝ)), p.wf = true → rate ≠ 0#32 →
    let Z := ended (startValue p.z0) rate fs
    runOn p (NumberSystem.reals.carrier (realStart p.z0)) (encode (.oscnew rate) :: fs.map fun f => encode (.osctick f)) b =
      .next ({ valid := true, rate := some rate, z := some (Z.re, Z.im) }, answers (startValue p.z0) rate fs)) ∧
  ∀ (rate : Rate) (fs : List FreqCode) (s : State), rate ≠ 0#32 →
    ∃ (t : State) (z : Phase),
      runCommands (encode (.oscnew rate) :: fs.map fun f => encode (.osctick f)) s = .next t ∧
      t.valid = true ∧ t.rate = some rate ∧ t.z = some z ∧
      z.value Config.params.z0 = ended (startValue Config.params.z0) rate fs ∧
      t.responses = s.responses ++ answers (startValue Config.params.z0) rate fs

/-- R147: a tick multiplies `Z` by `exp(i*theta)` and so leaves its magnitude as it is: for every starting value, and in every
legal state of the machine, where the magnitude is `|Z0|`, which is 0.707 for the `Z0` that `exec` runs. Log entry 5. -/
def Obligations.MagnitudeInvariant : Prop :=
  (∀ (z0 : Config.StartValue) (rate : Rate) (f : FreqCode) (z : Phase), rate ≠ 0#32 → z.den = turnCodes rate →
    ((phaseCarrier z0).turn rate f z).value z0 = z.value z0 * Complex.exp (Complex.I * (theta f rate : ℝ)) ∧
    ‖((phaseCarrier z0).turn rate f z).value z0‖ = ‖z.value z0‖) ∧
  (∀ (f : FreqCode) (s : State) (rate : Rate) (z : Phase), s.Inv → s.rate = some rate → s.z = some z →
    ∃ (t : State) (z' : Phase), exec (.osctick f) s = .next t ∧ t.z = some z' ∧
      z'.value Config.params.z0 = z.value Config.params.z0 * Complex.exp (Complex.I * (theta f rate : ℝ)) ∧
      ‖z'.value Config.params.z0‖ = ‖z.value Config.params.z0‖ ∧
      ‖z'.value Config.params.z0‖ = ‖startValue Config.params.z0‖ ∧ ‖z'.value Config.params.z0‖ = 0.707)

/-- R148: every sample is bounded by `rha(|Z0| * 32767)`. First for every admissible `Z0`, of the block over the real numbers:
construction gives a `Z` of magnitude `|Z0|`, and a tick of such a `Z` answers a sample within the bound, which is at most
32767, and leaves the magnitude. Then for the machine in every legal state: the bound is 23166 for the default `Z0`, log
entry 5. -/
def Obligations.SampleBound : Prop :=
  (∀ p : Config.Params, p.wf = true →
    let c := NumberSystem.reals.carrier (realStart p.z0)
    let bound := rhaReal (‖startValue p.z0‖ * 32767)
    bound ≤ 32767 ∧
    (∀ rate : Rate, magnitude id (c.start rate) = ‖startValue p.z0‖) ∧
    ∀ (f : FreqCode) (b : Block (ℝ × ℝ)) (rate : Rate) (z : ℝ × ℝ), b.valid = true → b.rate = some rate → b.z = some z →
      magnitude id z = ‖startValue p.z0‖ →
      ∃ (smp : ℤ) (z' : ℝ × ℝ), |smp| ≤ bound ∧ magnitude id z' = ‖startValue p.z0‖ ∧
        runOn p c [encode (.osctick f)] b = .next (writeZ z' b, [responseWord .ok (samplePayload (BitVec.ofInt 16 smp))])) ∧
  rhaReal (‖startValue Config.params.z0‖ * 32767) = 23166 ∧
  ∀ (f : FreqCode) (s : State), s.Inv → s.valid = true →
    ∃ (smp : ℤ) (z' : Phase), -23166 ≤ smp ∧ smp ≤ 23166 ∧
      exec (.osctick f) s = .next (respond .ok (samplePayload (BitVec.ofInt 16 smp)) { s with z := some z' })

/-- R149: a tick moves the state by the chord of the arc `theta`, whatever came before, and two successive samples differ by
at most `32767 * |Z0| * theta + 1`. The `Z0` is that of log entry 5. -/
def Obligations.PhaseContinuity : Prop :=
  ∀ (f : FreqCode) (s t : State) (rate : Rate) (z z' : Phase), s.Inv → s.rate = some rate → s.z = some z →
    exec (.osctick f) s = .next t → t.z = some z' →
    ‖z'.value Config.params.z0 - z.value Config.params.z0‖ =
      2 * ‖startValue Config.params.z0‖ * |Real.sin (theta f rate / 2)| ∧
    ‖z'.value Config.params.z0 - z.value Config.params.z0‖ ≤ ‖startValue Config.params.z0‖ * theta f rate ∧
    |((sampleOf Config.params.z0 z' - sampleOf Config.params.z0 z : ℤ) : ℝ)| ≤
      32767 * ‖startValue Config.params.z0‖ * theta f rate + 1

/-- R153, first part: two codes that differ by a multiple of `510 * RATE` have the same effect and the same sample; the
sample rate itself acts as 0 Hz. -/
def Obligations.CodesAliasByWholeTurns : Prop :=
  (∀ (f f' : FreqCode) (m : Nat) (s : State) (rate : Rate), s.Inv → s.rate = some rate →
    f'.toNat = f.toNat + m * (510 * rate.toNat) → exec (.osctick f') s = exec (.osctick f) s) ∧
  (∀ (f : FreqCode) (s : State) (rate : Rate), s.Inv → s.rate = some rate → f.toNat = 510 * rate.toNat →
    exec (.osctick f) s = exec (.osctick 0#32) s)

/-- R153, second part: `F` and `510*RATE - F` rotate in opposite senses, and for the `Z0` that `exec` runs (imaginary part
0) a row of ticks and the row of mirrored codes answer the same samples. Log entry 5. -/
def Obligations.MirroredCodesGiveTheSameSamples : Prop :=
  ∀ (rate : Rate) (fs gs : List FreqCode) (s t t' : State), rate ≠ 0#32 →
    List.Forall₂ (fun f g => f.toNat + g.toNat = 510 * rate.toNat) fs gs →
    runCommands (encode (.oscnew rate) :: fs.map fun f => encode (.osctick f)) s = .next t →
    runCommands (encode (.oscnew rate) :: gs.map fun f => encode (.osctick f)) s = .next t' →
    t.responses = t'.responses

/-- R155: zero frequency leaves `Z` unchanged and answers `rha(Z.RE * 32767)`, the sample of the tick before; a run of
them after `OSCNEW` is the constant 23166 for the `Z0` that `exec` runs. Log entry 5. -/
def Obligations.ZeroFrequencyHoldsTheState : Prop :=
  (∀ (s : State) (z : Phase), s.Inv → s.z = some z →
    exec (.osctick 0#32) s =
      .next (respond .ok (samplePayload (BitVec.ofInt 16 (rhaReal (z.re Config.params.z0 * 32767)))) s)) ∧
  (∀ (f : FreqCode) (s t : State) (rsp : Word), s.Inv → s.valid = true → exec (.osctick f) s = .next t →
    t.responses = s.responses ++ [rsp] →
    exec (.osctick 0#32) t = .next { t with responses := t.responses ++ [rsp] }) ∧
  (∀ (rate : Rate) (n : Nat) (s : State), rate ≠ 0#32 →
    ∃ t, runCommands (encode (.oscnew rate) :: List.replicate n (encode (.osctick 0#32))) s = .next t ∧
      t.responses = s.responses ++ 0#64 :: List.replicate n 0x0000000000005A7E#64)

/-- Reordering two ticks leaves the final state of the block the same (R256). -/
def Obligations.SwappedTicksLeaveTheSameState : Prop :=
  ∀ (f g : FreqCode) (s t t' : State), s.Inv →
    runCommands [encode (.osctick f), encode (.osctick g)] s = .next t →
    runCommands [encode (.osctick g), encode (.osctick f)] s = .next t' → t.block = t'.block

/-- R152: whatever number system meets the contract, under an admissible configuration: a construction and any row of ticks
are answered `OK` with the samples of the system, none of which leaves -32767 to 32767, and the magnitude stays within
`EPS_MAG` of 0.707; nothing but the contract is assumed of the system. The second clause is the model's own reading and not
R152's (log entry 6; spec/93_implementation_defined.md U4): for a `scale_round` that rounds `32767*Z.RE` to a nearest integer,
the bound on the magnitude alone gives the bound on the samples, by the bound on `EPS_MAG`. -/
def Obligations.ContractKeepsSamplesInRange : Prop :=
  (∀ (K N : Type) (n : NumberSystem K N) (z0 : N × N) (p : Config.Params) (val : N → ℝ) (rate : Rate) (fs : List FreqCode)
    (b : Block (N × N)), p.wf = true → n.Contract z0 p val → rate ≠ 0#32 →
    let c := n.carrier z0
    ∃ (b' : Block (N × N)) (rsps : List Word),
      runOn p c (encode (.oscnew rate) :: fs.map fun f => encode (.osctick f)) b = .next (b', rsps) ∧
      b'.valid = true ∧ b'.rate = some rate ∧ b'.z = some (c.after rate fs) ∧
      rsps = responseWord .ok 0#48 :: ((List.range fs.length).map fun k =>
        responseWord .ok (samplePayload (BitVec.ofInt 16 (c.sample (c.after rate (fs.take (k + 1))))))) ∧
      (∀ k < fs.length, -32767 ≤ c.sample (c.after rate (fs.take (k + 1))) ∧ c.sample (c.after rate (fs.take (k + 1))) ≤ 32767) ∧
      ∀ k ≤ fs.length, |magnitude val (c.after rate (fs.take k)) - 0.707| ≤ epsMag p) ∧
  (∀ (K N : Type) (n : NumberSystem K N) (z0 : N × N) (p : Config.Params) (val : N → ℝ) (rate : Rate) (fs : List FreqCode),
    p.wf = true → (∀ x : N, |(n.scaleRound x : ℝ) - 32767 * val x| ≤ 1 / 2) →
    |magnitude val ((n.carrier z0).after rate fs) - 0.707| ≤ epsMag p →
    |(n.carrier z0).sample ((n.carrier z0).after rate fs)| ≤ 32767)

/-- The real numbers meet the contract of R152 with `EPS_MAG` = 0 (R147), and what `exec` evaluates on the exact carrier of R159
is the block over the real numbers: from every legal state, for every row of command words, the same responses and the same
`VALID`, `RATE`, `Z.RE` and `Z.IM`. Log entries 4 to 8. -/
def Obligations.ReferenceMeetsTheContract : Prop :=
  let z0 := Config.params.z0
  let real (s : State) : Block (ℝ × ℝ) :=
    { valid := s.valid, rate := s.rate, z := s.z.map fun z => (z.re z0, z.im z0) }
  NumberSystem.reals.Contract (realStart z0) Config.params id ∧ epsMag Config.params = 0 ∧
  ∀ (ws : List Word) (s : State), s.Inv →
    ∃ (t : State) (rsps : List Word), runCommands ws s = .next t ∧ t.responses = s.responses ++ rsps ∧
      runOn Config.params (NumberSystem.reals.carrier (realStart z0)) ws (real s) = .next (real t, rsps)

/-! The assembler, byte transport and the documented host -/

/-- R77 with the frequencies it names: each pseudo-instruction in its range expands to its code, which stands for the
frequency. -/
def Obligations.FrequencyPseudoInstructions : Prop :=
  (∀ h : Nat, 510 * h < 2 ^ 32 →
    ∃ f : FreqCode, expand (.osctickHz h) = some (.osctick f) ∧ f.toNat = 510 * h ∧ frequencyHz f = h) ∧
  (∀ n : Nat, n ≤ 255 →
    ∃ f : FreqCode, expand (.osctickLuma n) = some (.osctick f) ∧ f.toNat = 765000 + 1600 * n ∧
      frequencyHz f = 1500 + 800 * n / 255) ∧
  (∀ n : Nat, n ≤ 510 →
    ∃ f : FreqCode, expand (.osctickAvg n) = some (.osctick f) ∧ f.toNat = 765000 + 800 * n ∧
      frequencyHz f = 1500 + 800 * (n / 2) / 255)

/-- An operand that does not fit its field is an assembly error, an operand that fits is not, for every command and every
pseudo-instruction (R75 to R77); a line whose statement has such an operand is refused with the assembly error, every other
statement becomes its command's word; and every command has a statement. The lines are at both ends of each range. -/
def Obligations.AssemblerChecksOperands : Prop :=
  (∀ i : Instr, expand i.source = some i) ∧
  (∀ r g b : Nat, expand (.csc r g b) = none ↔ 255 < r ∨ 255 < g ∨ 255 < b) ∧
  (∀ rate dn : Nat, expand (.ticks rate dn) = none ↔ 2 ^ 32 ≤ rate ∨ 2 ^ 16 ≤ dn) ∧
  (∀ rate : Nat, expand (.oscnew rate) = none ↔ 2 ^ 32 ≤ rate) ∧
  (∀ f : Nat, expand (.osctick f) = none ↔ 2 ^ 32 ≤ f) ∧
  (∀ (seg : Segment) (rate : Nat), expand (.segment seg rate) = none ↔ 2 ^ 32 ≤ rate) ∧
  (∀ h : Nat, expand (.osctickHz h) = none ↔ 2 ^ 32 ≤ 510 * h) ∧
  (∀ n : Nat, expand (.osctickLuma n) = none ↔ 255 < n) ∧
  (∀ n : Nat, expand (.osctickAvg n) = none ↔ 510 < n) ∧
  (∀ (line : List Char) (src : Source), parseLine line = .ok (some src) →
    (expand src = none → assembleLine line = .error .operandRange) ∧
    ∀ i, expand src = some i → assembleLine line = .ok (some (encode i))) ∧
  (∀ line ∈ [ "CSC 256, 0, 0", "CSC 0, 256, 0", "CSC 0, 0, 0x100", "TICKS 4294967296, 0", "TICKS 0, 65536", "OSCNEW 4294967296",
      "OSCTICK 0x100000000", "TICKS.HSYNC 4294967296", "TICKS.SPORCH 4294967296", "TICKS.PORCH 4294967296",
      "TICKS.SEP 4294967296", "TICKS.YSCAN 4294967296", "TICKS.UVSCAN 4294967296", "OSCTICK.HZ 8421505", "OSCTICK.LUMA 256",
      "OSCTICK.AVG 511" ],
    assembleLine line.toList = .error .operandRange) ∧
  (∀ e ∈ [ ("CSC 255, 255, 255", Instr.csc 255#8 255#8 255#8), ("TICKS 4294967295, 65535", Instr.ticks 4294967295#32 65535#16),
      ("OSCNEW 4294967295", Instr.oscnew 4294967295#32), ("OSCTICK 0xFFFFFFFF", Instr.osctick 4294967295#32),
      ("TICKS.UVSCAN 4294967295", Instr.ticks 4294967295#32 440#16), ("OSCTICK.HZ 8421504", Instr.osctick 4294967040#32),
      ("OSCTICK.LUMA 255", Instr.osctick 1173000#32), ("OSCTICK.AVG 510", Instr.osctick 1173000#32) ],
    assembleLine e.1.toList = .ok (some (encode e.2)))

/-- Byte order on a transport: a word is eight bytes, the k-th of them bits `8k+7:8k`, so bits 7:0 first, and reads back (R47);
a sample is two bytes, low byte first, and -23166 is 0x82, 0xA5 (R45). -/
def Obligations.TransportIsLittleEndian : Prop :=
  (∀ w : Word, bytesOfWord w = (List.range 8).map (fun k => bits w (8 * k) 8) ∧
    ∃ b0 b1 b2 b3 b4 b5 b6 b7, bytesOfWord w = [b0, b1, b2, b3, b4, b5, b6, b7] ∧
      wordOfBytes b0 b1 b2 b3 b4 b5 b6 b7 = w) ∧
  (∀ smp : Sample, ∃ lo hi, sampleBytes smp = [lo, hi] ∧ hi ++ lo = smp) ∧
  sampleBytes (BitVec.ofInt 16 (-23166)) = [0x82#8, 0xA5#8]

/-- The construction of an Image: the wrong number of bytes is `InvalidVectorSize`, a wrong dimension its own error, and
otherwise pixel `p` is `CSC` of the `p`-th triple (R182, R184). The order of the last two checks is log entry 14. -/
def Obligations.ImageConstruction : Prop :=
  (∀ rgb : List Byte, rgb.length ≠ 230400 → buildImage rgb = .error (.invalidVectorSize rgb.length 230400)) ∧
  (∀ rgb : List Byte, rgb.length = 230400 → ∃ img, buildImage rgb = .ok img ∧ img.pixels.length = 76800 ∧
    ∀ p, p < 76800 → ∃ r g b, rgb[3 * p]? = some r ∧ rgb[3 * p + 1]? = some g ∧ rgb[3 * p + 2]? = some b ∧
      img.pixelAt (p % 320) (p / 320) = .ok { y := (csc r g b).1, u := (csc r g b).2.1, v := (csc r g b).2.2 }) ∧
  (∀ (width height : Nat) (rgb : List Byte), width ≠ 320 → buildDecoded width height rgb = .error (.invalidWidth width 320)) ∧
  (∀ (height : Nat) (rgb : List Byte), height ≠ 240 → buildDecoded 320 height rgb = .error (.invalidHeight height 240))

/-- R192: the length of one encode is the header length plus 120 times the per-pair length, which is the formula of the
rule, with its three values; for every choice of what the source leaves open about the host. The header is the leader of R187,
0 Hz for `rate*0.3` samples, and after it tones of 1900, 1200, 1300 and 1100 Hz only; how the number of samples is rounded is
open (N5), and that it is one of the two integers beside `rate*0.3` is the model's own choice (log entry 14). -/
def Obligations.EncodeLength : Prop :=
  (∀ (hp : HostParams) (img : Image) (rate : Rate) (fs : List FreqCode),
    frequencies hp img (segmentCounts rate) rate = .ok fs →
    fs.length = (header hp rate).length + 120 * perPairLength rate ∧
    perPairLength rate = 2 * (tickCount rate 90#16 + tickCount rate 30#16 + tickCount rate 880#16 +
      tickCount rate 45#16 + tickCount rate 15#16) + 2 * tickCount rate 440#16) ∧
  (∀ (hp : HostParams) (rate : Rate), ∃ (n : Nat) (tones : List FreqCode),
    leader hp rate = List.replicate n 0#32 ∧ header hp rate = leader hp rate ++ tones ∧
    (∀ f ∈ tones, f = 969000#32 ∨ f = 612000#32 ∨ f = 663000#32 ∨ f = 561000#32) ∧ |(n : ℚ) - rate.toNat * (3 / 10)| < 1 ∧
    (rate.toNat % 10 = 0 → 10 * n = 3 * rate.toNat)) ∧
  perPairLength 8000#32 = 2400 ∧ perPairLength 44100#32 = 13224 ∧ perPairLength 48000#32 = 14400 ∧
  120 * perPairLength 8000#32 = 288000 ∧ 120 * perPairLength 44100#32 = 1586880 ∧ 120 * perPairLength 48000#32 = 1728000

/-- The documented sequencer makes no lookup out of range (R183, R189, R191), whatever the tie rule and the start of `tick`, for
a chroma column below 320: the frequencies of every image of 76800 pixels exist. In every Image that is built the codes of a
luma scan are 790600 to 1139400 (1550.196... to 2234.117... Hz, R189) and those of a chroma scan 790600 to 1147400
(1550.196... to 2249.803... Hz, R191), whichever mean is taken; and the code of two chroma values is fixed when their sum is
even, and otherwise that of the exact mean or of an integer beside it (N7). Log entry 14. -/
def Obligations.SequencerStaysInBounds : Prop :=
  (∀ (hp : HostParams) (img : Image) (rate : Rate), img.pixels.length = 76800 →
    (∀ tick n, hp.chromaColumn tick n < 320) → ∃ fs, frequencies hp img (segmentCounts rate) rate = .ok fs) ∧
  (∀ (hp : HostParams) (rgb : List Byte) (img : Image) (counts : SegmentCounts) (y : Nat) (fs : List FreqCode),
    buildImage rgb = .ok img →
    (lumaScan hp img counts y = .ok fs → ∀ f ∈ fs, 790600 ≤ f.toNat ∧ f.toNat ≤ 1139400) ∧
    (chromaScan hp img counts Pixel.v y = .ok fs → ∀ f ∈ fs, 790600 ≤ f.toNat ∧ f.toNat ≤ 1147400) ∧
    (chromaScan hp img counts Pixel.u y = .ok fs → ∀ f ∈ fs, 790600 ≤ f.toNat ∧ f.toNat ≤ 1147400)) ∧
  ∀ (mean : ChromaMean) (m : Nat), mean.code (2 * m) = 765000 + 1600 * m ∧
    (mean.code (2 * m + 1) = 765000 + 800 * (2 * m + 1) ∨ mean.code (2 * m + 1) = 765000 + 1600 * m ∨
      mean.code (2 * m + 1) = 765000 + 1600 * (m + 1))

/-- One documented encode, for every choice of what the source leaves open about the host, of a raw buffer and of a decoded
image (how that carries its pixels is the model's own choice, log entry 23). From reset (R254): every command is answered `OK`,
one response each. R193 has the host owe a positive rate; that with rate 0 it refuses, issues no command and makes no Encoder
is the model's own choice (log entry 22). An Encoder (R185), from any state of the block, is made with every positive rate,
keeps the six counts, and its sequence, taken once (log entry 22), is the concatenation of the block's outputs (R186), sample
by sample the rounding of R146. Log entries 5, 14 and 21. -/
def Obligations.WholeEncodeAnswersOk : Prop :=
  (∀ (hp : HostParams) (width height : Nat) (rgb : List Byte) (rate : Rate) (cmds : List Instr),
    encodeCommands hp rgb rate = .ok cmds ∨ encodeDecodedCommands hp width height rgb rate = .ok cmds →
    rate ≠ 0#32 ∧ ∃ t, runCommands (cmds.map encode) State.reset = .next t ∧ t.noErrorResponse = true ∧
      t.responses.length = cmds.length) ∧
  (∀ (hp : HostParams) (img : Image) (s : State), imageCommands hp img 0#32 = .error .rateNotPositive ∧
    Encoder.new img 0#32 s = .error .rateNotPositive) ∧
  ∀ (hp : HostParams) (img : Image) (rate : Rate) (s : State), rate ≠ 0#32 →
    ∃ (enc : Encoder) (t : State), Encoder.new img rate s = .ok (enc, t) ∧ enc.image = img ∧ enc.rate = rate ∧
      enc.counts = segmentCounts rate ∧
      ∀ fs : List FreqCode, frequencies hp img (segmentCounts rate) rate = .ok fs →
        ∃ (w : Waveform) (enc' : Encoder) (smps : List Sample) (u : State), enc.encode hp = .ok (w, enc') ∧
          enc'.encode hp = .error .consumed ∧ w.samples t = .ok (smps, u) ∧
          smps = (List.range fs.length).map fun n => BitVec.ofInt 16 (rhaReal (outputValue Config.params.z0
            ((phaseCarrier Config.params.z0).after rate (fs.take (n + 1)))))
end

