-- ==== Sys2Proof/Laws/Rounding.lean ====
section
/-! SUPPORT. The rounding `rha` over the integers and over the real numbers (spec/00_scope.md R9; spec/42_oscillator.md
R151), and the 16-bit conversion (R150). -/

namespace Sys2Proof.Machine

theorem rhaReal_mono : Monotone rhaReal := by
  intro x y h
  unfold rhaReal
  split_ifs with hx hy hy
  · exact Int.floor_mono (by linarith)
  · linarith
  · have h1 : (0 : ℤ) ≤ ⌊y + 1 / 2⌋ := Int.floor_nonneg.mpr (by linarith)
    have h2 : (0 : ℤ) ≤ ⌊-x + 1 / 2⌋ := Int.floor_nonneg.mpr (by linarith)
    omega
  · have : ⌊-y + 1 / 2⌋ ≤ ⌊-x + 1 / 2⌋ := Int.floor_mono (by linarith)
    omega

theorem floor_half (n : ℤ) (d : ℕ) (hd : 0 < d) : ⌊(n : ℝ) / d + 1 / 2⌋ = (2 * n + d) / (2 * d) := by
  have hd' : (d : ℝ) ≠ 0 := by exact_mod_cast hd.ne'
  have h : (n : ℝ) / d + 1 / 2 = ((2 * n + d : ℤ) : ℝ) / ((2 * d : ℕ) : ℝ) := by
    push_cast; field_simp
  rw [h, Int.floor_div_natCast, Int.floor_intCast]
  push_cast; rfl

/-- The integer form of `rha` is the rounding of the quotient. -/
theorem rha_eq_rhaReal (n : ℤ) (d : ℕ) (hd : 0 < d) : rha n d = rhaReal ((n : ℝ) / d) := by
  have hd' : (0 : ℝ) < d := by exact_mod_cast hd
  have hiff : (0 ≤ (n : ℝ) / d) ↔ 0 ≤ n := by
    rw [div_nonneg_iff]
    constructor
    · rintro (h | h)
      · exact_mod_cast h.1
      · linarith [h.2]
    · intro h; left; exact ⟨by exact_mod_cast h, hd'.le⟩
  unfold rha rhaReal
  by_cases h : 0 ≤ n
  · rw [if_pos h, if_pos (hiff.mpr h), floor_half n d hd]
  · rw [if_neg h, if_neg (fun h' => h (hiff.mp h'))]
    have := floor_half (-n) d hd
    rw [← this]; push_cast; ring_nf

/-- Rounding moves a value by at most one half. -/
theorem rhaReal_near (x : ℝ) : |(rhaReal x : ℝ) - x| ≤ 1 / 2 := by
  unfold rhaReal
  split_ifs with h
  · have h1 := Int.floor_le (x + 1 / 2)
    have h2 := Int.lt_floor_add_one (x + 1 / 2)
    rw [abs_le]; constructor <;> linarith
  · have h1 := Int.floor_le (-x + 1 / 2)
    have h2 := Int.lt_floor_add_one (-x + 1 / 2)
    push_cast
    rw [abs_le]; constructor <;> linarith

/-- An interval shorter than the distance of one of its points from every half-integer rounds to one integer. -/
theorem rhaReal_eq_of_gap {lo v hi g : ℝ} (h1 : lo ≤ v) (h1' : v ≤ hi) (h2 : hi - lo < g)
    (hg : ∀ m : ℤ, g ≤ |v - (m + 1 / 2)|) : rhaReal lo = rhaReal hi := by
  by_contra hne
  have hlt : rhaReal lo < rhaReal hi := lt_of_le_of_ne (rhaReal_mono (h1.trans h1')) hne
  have a1 := abs_le.mp (rhaReal_near lo)
  have a2 := abs_le.mp (rhaReal_near hi)
  have hlt' : (rhaReal lo : ℝ) + 1 ≤ rhaReal hi := by exact_mod_cast hlt
  have := hg (rhaReal lo)
  have h3 : |v - ((rhaReal lo : ℝ) + 1 / 2)| ≤ hi - lo := by
    rw [abs_le]; constructor <;> linarith
  linarith

/-- In range the conversion gives the pattern, and the pattern reads back as the integer (R10, R150). -/
theorem toI16_some {n : ℤ} (h : -32768 ≤ n ∧ n ≤ 32767) : toI16 n = some (BitVec.ofInt 16 n) := if_pos h

theorem toInt_ofInt16 {n : ℤ} (h : -32768 ≤ n ∧ n ≤ 32767) : (BitVec.ofInt 16 n).toInt = n := by
  rw [BitVec.toInt_ofInt]
  apply Int.bmod_eq_of_le <;> omega

/-- Out of range the conversion is not defined (R150). -/
theorem toI16_none {n : ℤ} (h : ¬ (-32768 ≤ n ∧ n ≤ 32767)) : toI16 n = none := if_neg h

end Sys2Proof.Machine
end

