-- ==== Sys2Proof/Laws/Trig.lean ====
section
/-! SUPPORT. What the integer series of Sys2Proof/Machine/Trig.lean compute: pi, and the cosine and sine of a phase, each with
its distance from the real number (spec/42_oscillator.md R152, R159). -/

namespace Sys2Proof.Machine

/-! The two series as sums, and their distance from the functions. -/

theorem expSeries_den_pos (p : Int) (q : Nat) (hq : 0 < q) (m j : Nat) (hj : 0 < j) :
    0 < (expSeries p q m j).2.2 := by
  induction m generalizing j with
  | zero => simp [expSeries]
  | succ m ih =>
    have := ih (j + 1) (by omega)
    simp only [expSeries]
    positivity

/-- The Horner form is the Taylor sum of `exp(i*p/q)`. -/
theorem expSeries_eq_sum (p : Int) (q : Nat) (hq : 0 < q) (m j : Nat) (hj : 0 < j) :
    (((expSeries p q m j).1 : ℂ) + ((expSeries p q m j).2.1 : ℂ) * Complex.I) / ((expSeries p q m j).2.2 : ℂ) =
      ∑ i ∈ Finset.range (m + 1), (((p : ℂ) / q) * Complex.I) ^ i / (j.ascFactorial i : ℂ) := by
  induction m generalizing j with
  | zero => simp [expSeries]
  | succ m ih =>
    have hd : ((expSeries p q m (j + 1)).2.2 : ℂ) ≠ 0 := by
      exact_mod_cast (expSeries_den_pos p q hq m (j + 1) (by omega)).ne'
    have hq' : (q : ℂ) ≠ 0 := by exact_mod_cast hq.ne'
    have hj' : (j : ℂ) ≠ 0 := by exact_mod_cast hj.ne'
    have step : ∀ i, (j.ascFactorial (i + 1) : ℂ) = j * ((j + 1).ascFactorial i : ℂ) := by
      intro i
      have := Nat.succ_ascFactorial j i
      push_cast [Nat.ascFactorial_succ]
      have h2 : ((j + i : ℕ) : ℂ) * (j.ascFactorial i : ℂ) = j * ((j + 1).ascFactorial i : ℂ) := by
        exact_mod_cast this.symm
      push_cast at h2
      exact h2
    rw [Finset.sum_range_succ']
    have hs : ∑ i ∈ Finset.range (m + 1), (((p : ℂ) / q) * Complex.I) ^ (i + 1) / (j.ascFactorial (i + 1) : ℂ) =
        (((p : ℂ) / q) * Complex.I) / j *
          ∑ i ∈ Finset.range (m + 1), (((p : ℂ) / q) * Complex.I) ^ i / ((j + 1).ascFactorial i : ℂ) := by
      rw [Finset.mul_sum]
      refine Finset.sum_congr rfl fun i _ => ?_
      rw [step, pow_succ]
      have : ((j + 1).ascFactorial i : ℂ) ≠ 0 := by
        exact_mod_cast (Nat.ascFactorial_pos j i).ne'
      field_simp
    rw [hs, ← ih (j + 1) (by omega)]
    simp only [expSeries]
    push_cast
    simp only [Nat.ascFactorial_zero, pow_zero, Nat.cast_one, div_one]
    field_simp
    have := Complex.I_sq
    linear_combination (-(p : ℂ) * (expSeries p q m (j + 1)).2.1) * this

theorem arctanTail_den_pos (x : Nat) (hx : 0 < x) (m j : Nat) : 0 < (arctanTail x m j).2 := by
  induction m generalizing j with
  | zero => simp [arctanTail]
  | succ m ih =>
    have := ih (j + 1)
    simp only [arctanTail]
    positivity

/-- The Horner form is the partial sum of the arctangent series. -/
theorem arctanTail_eq_sum (x : Nat) (hx : 0 < x) (m j : Nat) :
    ((arctanTail x m j).1 : ℝ) / ((arctanTail x m j).2 : ℝ) =
      ∑ i ∈ Finset.range m, (-1) ^ i / (((2 * (j + i) + 1 : ℕ) : ℝ) * ((x : ℝ) ^ 2) ^ i) := by
  induction m generalizing j with
  | zero => simp [arctanTail]
  | succ m ih =>
    have hd : ((arctanTail x m (j + 1)).2 : ℝ) ≠ 0 := by
      exact_mod_cast (arctanTail_den_pos x hx m (j + 1)).ne'
    have hx' : (x : ℝ) ≠ 0 := by exact_mod_cast hx.ne'
    have hj' : ((2 * j + 1 : ℕ) : ℝ) ≠ 0 := by positivity
    rw [Finset.sum_range_succ']
    have hs : ∑ i ∈ Finset.range m, (-1 : ℝ) ^ (i + 1) / (((2 * (j + (i + 1)) + 1 : ℕ) : ℝ) * ((x : ℝ) ^ 2) ^ (i + 1)) =
        (-1 / (x : ℝ) ^ 2) * ∑ i ∈ Finset.range m, (-1) ^ i / (((2 * (j + 1 + i) + 1 : ℕ) : ℝ) * ((x : ℝ) ^ 2) ^ i) := by
      rw [Finset.mul_sum]
      refine Finset.sum_congr rfl fun i _ => ?_
      have : ((2 * (j + 1 + i) + 1 : ℕ) : ℝ) ≠ 0 := by positivity
      rw [show j + (i + 1) = j + 1 + i by ring, pow_succ, pow_succ]
      field_simp
    rw [hs, ← ih (j + 1)]
    simp only [arctanTail]
    push_cast at hj' ⊢
    simp only [pow_zero, add_zero]
    field_simp
    ring

/-- The partial sum is near `atan(1/x)`. -/
theorem arctan_inv_near (x m : Nat) (hx : 2 ≤ x) :
    |((arctanTail x m 0).1 : ℝ) / (((arctanTail x m 0).2 * x : ℕ) : ℝ) - Real.arctan ((x : ℝ)⁻¹)| ≤
      (2 / (x : ℝ)) * (1 / 4) ^ m := by
  have hx0 : (0 : ℝ) < x := by exact_mod_cast (by omega : 0 < x)
  have hx2 : (2 : ℝ) ≤ x := by exact_mod_cast hx
  have hlt : ‖((x : ℝ)⁻¹)‖ < 1 := by
    rw [norm_inv, Real.norm_of_nonneg hx0.le]
    exact inv_lt_one_of_one_lt₀ (by linarith)
  have hsum := Real.hasSum_arctan hlt
  have hb : ∀ n : ℕ, ‖(-1 : ℝ) ^ n * ((x : ℝ)⁻¹) ^ (2 * n + 1) / ((2 * n + 1 : ℕ) : ℝ)‖ ≤ (1 / (x : ℝ)) * (1 / 4) ^ n := by
    intro n
    rw [norm_div, norm_mul, norm_pow, norm_pow, norm_neg, norm_one, one_pow, one_mul, norm_inv,
      Real.norm_of_nonneg hx0.le, Real.norm_of_nonneg (by positivity)]
    have h1 : ((x : ℝ)⁻¹) ^ (2 * n + 1) = (1 / (x : ℝ)) * (((x : ℝ)⁻¹) ^ 2) ^ n := by
      rw [pow_succ, pow_mul, one_div]; ring
    rw [h1]
    have h2 : ((x : ℝ)⁻¹) ^ 2 ≤ 1 / 4 := by
      have : (x : ℝ)⁻¹ ≤ 2⁻¹ := inv_anti₀ (by norm_num) hx2
      have h0 : 0 ≤ (x : ℝ)⁻¹ := by positivity
      nlinarith
    have h3 : (((x : ℝ)⁻¹) ^ 2) ^ n ≤ (1 / 4) ^ n := pow_le_pow_left₀ (by positivity) h2 n
    have h4 : (1 : ℝ) ≤ ((2 * n + 1 : ℕ) : ℝ) := by exact_mod_cast (by omega : 1 ≤ 2 * n + 1)
    calc _ ≤ (1 / (x : ℝ)) * (((x : ℝ)⁻¹) ^ 2) ^ n := div_le_self (by positivity) h4
      _ ≤ _ := by gcongr
  have := norm_sub_le_of_geometric_bound_of_hasSum (by norm_num : (1 / 4 : ℝ) < 1) hb hsum m
  have he : ((arctanTail x m 0).1 : ℝ) / (((arctanTail x m 0).2 * x : ℕ) : ℝ) =
      ∑ n ∈ Finset.range m, (-1 : ℝ) ^ n * ((x : ℝ)⁻¹) ^ (2 * n + 1) / ((2 * n + 1 : ℕ) : ℝ) := by
    rw [Nat.cast_mul, ← div_div, arctanTail_eq_sum x (by omega), Finset.sum_div]
    refine Finset.sum_congr rfl fun i _ => ?_
    rw [zero_add, pow_succ _ (2 * i), pow_mul, inv_pow, inv_pow]
    field_simp
  rw [he, ← Real.norm_eq_abs]
  refine this.trans ?_
  have : (1 / (x : ℝ)) * (1 / 4) ^ m / (1 - 1 / 4) = (4 / 3) / x * (1 / 4) ^ m := by ring
  rw [this]
  gcongr
  norm_num


/-- `pi` to within two units of `2^-k`. -/
theorem piScaled_near (k : Nat) (hk : 1 ≤ k) : |(piScaled k : ℝ) / 2 ^ k - Real.pi| ≤ 2 / 2 ^ k := by
  have ha := arctan_inv_near 5 (k + 1) (by norm_num)
  have hb := arctan_inv_near 239 (k + 1) (by norm_num)
  have hpa := arctanTail_den_pos 5 (by norm_num) (k + 1) 0
  have hpb := arctanTail_den_pos 239 (by norm_num) (k + 1) 0
  have hm := Real.four_mul_arctan_inv_5_sub_arctan_inv_239
  unfold piScaled
  set a := arctanTail 5 (k + 1) 0
  set b := arctanTail 239 (k + 1) 0
  simp only
  set n : ℤ := 2 ^ k * (16 * (a.1 * (b.2 * 239 : Nat)) - 4 * (b.1 * (a.2 * 5 : Nat))) with hn
  set d : ℕ := (a.2 * 5) * (b.2 * 239) with hd
  have hd0 : (0 : ℝ) < d := by exact_mod_cast (by positivity : 0 < d)
  have hdz : (0 : ℤ) < d := by exact_mod_cast hd0
  have h2 : (0 : ℝ) < 2 ^ k := by positivity
  have hq : (n : ℝ) / d = 2 ^ k * (16 * ((a.1 : ℝ) / ((a.2 * 5 : ℕ) : ℝ)) - 4 * ((b.1 : ℝ) / ((b.2 * 239 : ℕ) : ℝ))) := by
    have h1 : (a.2 : ℝ) ≠ 0 := by exact_mod_cast hpa.ne'
    have h3 : (b.2 : ℝ) ≠ 0 := by exact_mod_cast hpb.ne'
    rw [hn, hd]; push_cast; field_simp
  have hfl : ((n / (d : ℤ) : ℤ) : ℝ) ≤ (n : ℝ) / d ∧ (n : ℝ) / d < ((n / (d : ℤ) : ℤ) : ℝ) + 1 := by
    rw [le_div_iff₀ hd0, div_lt_iff₀ hd0]
    have e1 := Int.emod_add_mul_ediv n d
    have e2 := Int.emod_nonneg n hdz.ne'
    have e3 := Int.emod_lt_of_pos n hdz
    constructor
    · exact_mod_cast (by nlinarith : n / (d : ℤ) * d ≤ n)
    · exact_mod_cast (by nlinarith : n < (n / (d : ℤ) + 1) * d)
  set q : ℤ := n / (d : ℤ)
  have hpow : (1 / 4 : ℝ) ^ (k + 1) ≤ (1 / 4) * ((1 / 2) * (1 / 2 ^ k)) := by
    have : (1 / 4 : ℝ) ^ k = (1 / 2 ^ k) * (1 / 2 ^ k) := by
      rw [div_pow, one_pow, show (4 : ℝ) = 2 * 2 by norm_num, mul_pow]; field_simp
    have h4 : (1 / 2 ^ k : ℝ) ≤ 1 / 2 := by
      have : (2 : ℝ) ^ 1 ≤ 2 ^ k := pow_le_pow_right₀ (by norm_num) hk
      gcongr; simpa using this
    rw [pow_succ, this]
    have h5 : (0 : ℝ) ≤ 1 / 2 ^ k := by positivity
    nlinarith
  rw [abs_le] at ha hb ⊢
  set e : ℝ := 1 / 2 ^ k with he
  have hqe : (q : ℝ) / 2 ^ k = q * e := by rw [he]; ring
  have h2e : (2 : ℝ) / 2 ^ k = 2 * e := by rw [he]; ring
  have hu : (16 * ((a.1 : ℝ) / ((a.2 * 5 : ℕ) : ℝ)) - 4 * ((b.1 : ℝ) / ((b.2 * 239 : ℕ) : ℝ))) = (n : ℝ) / d * e := by
    rw [hq, he]; field_simp
  have he0 : 0 < e := by positivity
  push_cast at ha hb hu
  have hl := mul_le_mul_of_nonneg_right hfl.1 he0.le
  have hr := mul_le_mul_of_nonneg_right hfl.2.le he0.le
  rw [hqe, h2e]
  constructor <;> nlinarith

theorem cosSin_den_pos (k : Nat) (ph : Phase) (hd : 0 < ph.den) : 0 < (cosSin k ph).2.2 := by
  unfold cosSin
  exact expSeries_den_pos _ _ (by positivity) _ _ (by norm_num)

theorem two_pow_le_factorial (k : Nat) : 2 ^ (k + 9) * 2 * 2 ^ k ≤ (k + 9).factorial := by
  induction k with
  | zero => decide
  | succ k ih =>
    rw [show k + 1 + 9 = (k + 9) + 1 by ring, Nat.factorial_succ, pow_succ, pow_succ 2 k]
    calc 2 ^ (k + 9) * 2 * 2 * (2 ^ k * 2) = 4 * (2 ^ (k + 9) * 2 * 2 ^ k) := by ring
      _ ≤ (k + 9 + 1) * (k + 9).factorial := Nat.mul_le_mul (by omega) ih

/-- Quarter turns are multiplications by `i`. -/
theorem quarterTurn_eq (n : Nat) (c s : Int) :
    (((quarterTurn n c s).1 : ℂ) + ((quarterTurn n c s).2 : ℂ) * Complex.I) = Complex.I ^ n * ((c : ℂ) + s * Complex.I) := by
  have h : Complex.I ^ n = Complex.I ^ (n % 4) := by
    conv_lhs => rw [← Nat.div_add_mod n 4, pow_add, pow_mul, Complex.I_pow_four, one_pow, one_mul]
  rw [h]
  have h4 : n % 4 < 4 := Nat.mod_lt _ (by norm_num)
  unfold quarterTurn
  have hI := Complex.I_sq
  interval_cases n % 4
  · simp
  · simp; linear_combination (-(s : ℂ)) * hI
  · simp; ring_nf
  · simp [pow_succ]; linear_combination (s : ℂ) * hI

/-- The rotor a phase stands for, as whole quarter turns and the rest. -/
theorem exp_angle_eq (ph : Phase) (hd : 0 < ph.den) :
    Complex.exp ((ph.angle : ℂ) * Complex.I) = Complex.I ^ (4 * ph.num / ph.den) *
      Complex.exp (((Real.pi / 2 * ((4 * ph.num % ph.den : ℕ) / (ph.den : ℝ)) : ℝ) : ℂ) * Complex.I) := by
  have hI : Complex.I = Complex.exp (((Real.pi / 2 : ℝ) : ℂ) * Complex.I) := by
    push_cast; exact Complex.exp_pi_div_two_mul_I.symm
  conv_rhs => rw [show Complex.I ^ (4 * ph.num / ph.den) = (Complex.exp (((Real.pi / 2 : ℝ) : ℂ) * Complex.I)) ^ (4 * ph.num / ph.den) by rw [← hI]]
  rw [← Complex.exp_nat_mul, ← Complex.exp_add]
  congr 1
  unfold Phase.angle
  have hd' : (ph.den : ℝ) ≠ 0 := by exact_mod_cast hd.ne'
  have e := Nat.div_add_mod (4 * ph.num) ph.den
  have e' : (ph.den : ℝ) * ((4 * ph.num / ph.den : ℕ) : ℝ) + ((4 * ph.num % ph.den : ℕ) : ℝ) = 4 * ph.num := by
    exact_mod_cast e
  have : (2 * Real.pi * ((ph.num : ℝ) / ph.den) : ℝ) = ((4 * ph.num / ph.den : ℕ) : ℝ) * (Real.pi / 2) +
      Real.pi / 2 * ((4 * ph.num % ph.den : ℕ) / (ph.den : ℝ)) := by
    have h4 : (ph.num : ℝ) = ((ph.den : ℝ) * ((4 * ph.num / ph.den : ℕ) : ℝ) + ((4 * ph.num % ph.den : ℕ) : ℝ)) / 4 := by
      linarith
    rw [h4]; field_simp; ring
  rw [this]; push_cast; ring

/-- The approximated rotor is within `2 * 2^-k` of `exp(i*angle)`, and exact at a multiple of a quarter turn. -/
theorem cosSin_near (k : Nat) (hk : 2 ≤ k) (ph : Phase) (hd : 0 < ph.den) :
    ‖(((cosSin k ph).1 : ℂ) + ((cosSin k ph).2.1 : ℂ) * Complex.I) / ((cosSin k ph).2.2 : ℂ) -
      Complex.exp ((ph.angle : ℂ) * Complex.I)‖ ≤ if 4 * ph.num % ph.den = 0 then 0 else 2 / 2 ^ k := by
  set r : ℕ := 4 * ph.num % ph.den with hr
  have hrd : r < ph.den := Nat.mod_lt _ hd
  have hpi := piScaled_near k (by omega)
  set M := piScaled k with hM
  set q : ℕ := 2 ^ (k + 1) * ph.den with hq
  have hq0 : 0 < q := by positivity
  have hs := expSeries_eq_sum (M * r) q hq0 (k + 8) 1 (by norm_num)
  have hpos := expSeries_den_pos (M * r) q hq0 (k + 8) 1 (by norm_num)
  have hcs : (((cosSin k ph).1 : ℂ) + ((cosSin k ph).2.1 : ℂ) * Complex.I) / ((cosSin k ph).2.2 : ℂ) =
      Complex.I ^ (4 * ph.num / ph.den) * ∑ i ∈ Finset.range (k + 8 + 1), ((((M * r : ℤ) : ℂ) / q) * Complex.I) ^ i / (i.factorial : ℂ) := by
    have : ∀ i, ((1 : ℕ).ascFactorial i) = i.factorial := Nat.one_ascFactorial
    simp only [this] at hs
    rw [← hs, ← mul_div_assoc, ← quarterTurn_eq]
    rfl
  rw [hcs, exp_angle_eq ph hd, ← hr, ← mul_sub, norm_mul, norm_pow, Complex.norm_I, one_pow, one_mul]
  set x : ℝ := ((M * r : ℤ) : ℝ) / q with hx
  have hxc : (((M * r : ℤ) : ℂ) / q) = (x : ℂ) := by rw [hx]; push_cast; rfl
  rw [hxc]
  set y : ℝ := Real.pi / 2 * ((r : ℝ) / ph.den) with hy
  have hd' : (0 : ℝ) < ph.den := by exact_mod_cast hd
  have hρ : (r : ℝ) / ph.den ≤ 1 := by
    rw [div_le_one hd']; exact_mod_cast hrd.le
  have hρ0 : 0 ≤ (r : ℝ) / ph.den := by positivity
  have hxe : x = (M : ℝ) / 2 ^ k / 2 * ((r : ℝ) / ph.den) := by
    rw [hx, hq]; push_cast; field_simp; ring
  split_ifs with h0
  · have : (r : ℝ) = 0 := by exact_mod_cast h0
    have hx0 : x = 0 := by rw [hxe, this]; simp
    have hy0 : y = 0 := by rw [hy, this]; simp
    rw [hx0, hy0]
    rw [Finset.sum_range_succ']
    simp
  have hkk : (2 : ℝ) / 2 ^ k ≤ 1 / 2 := by
    have : (2 : ℝ) ^ 2 ≤ 2 ^ k := pow_le_pow_right₀ (by norm_num) hk
    rw [div_le_iff₀ (by positivity)]; nlinarith
  have hxy : |x - y| ≤ 1 / 2 ^ k := by
    have : x - y = ((M : ℝ) / 2 ^ k - Real.pi) / 2 * ((r : ℝ) / ph.den) := by rw [hxe, hy]; ring
    rw [this, abs_mul, abs_div, abs_of_nonneg hρ0, abs_two]
    have h1 : |(M : ℝ) / 2 ^ k - Real.pi| / 2 ≤ 1 / 2 ^ k := by
      have : (2 : ℝ) / 2 ^ k = 2 * (1 / 2 ^ k) := by ring
      linarith
    calc _ ≤ 1 / 2 ^ k * 1 := mul_le_mul h1 hρ hρ0 (by positivity)
      _ = _ := mul_one _
  have hx2 : |x| ≤ 2 := by
    have hpi4 := Real.pi_lt_d2
    have hpi0 := Real.pi_pos
    rw [hxe, abs_mul, abs_div, abs_of_nonneg hρ0, abs_two]
    have h1 : |(M : ℝ) / 2 ^ k| ≤ 4 := by
      rw [abs_le] at hpi ⊢
      constructor <;> linarith
    calc _ ≤ 4 / 2 * 1 := mul_le_mul (by linarith) hρ hρ0 (by norm_num)
      _ = 2 := by norm_num
  have hnx : ‖((x : ℂ) * Complex.I)‖ = |x| := by
    rw [norm_mul, Complex.norm_I, mul_one, Complex.norm_real, Real.norm_eq_abs]
  have ht := Complex.exp_bound' (x := (x : ℂ) * Complex.I) (n := k + 9) (by
    rw [hnx, div_le_iff₀ (by positivity)]
    push_cast
    have : (2 : ℝ) ≤ k := by exact_mod_cast hk
    linarith)
  have hfac : ‖((x : ℂ) * Complex.I)‖ ^ (k + 9) / ((k + 9).factorial : ℝ) * 2 ≤ 1 / 2 ^ k := by
    rw [hnx]
    have h1 : |x| ^ (k + 9) ≤ 2 ^ (k + 9) := pow_le_pow_left₀ (abs_nonneg _) hx2 _
    have h2 : ((2 : ℝ) ^ (k + 9) * 2 * 2 ^ k) ≤ ((k + 9).factorial : ℝ) := by
      exact_mod_cast two_pow_le_factorial k
    rw [div_mul_eq_mul_div, div_le_div_iff₀ (by positivity) (by positivity)]
    nlinarith [show (0 : ℝ) < 2 ^ k by positivity]
  have hrot : ‖Complex.exp ((x : ℂ) * Complex.I) - Complex.exp ((y : ℂ) * Complex.I)‖ ≤ 1 / 2 ^ k := by
    have : Complex.exp ((x : ℂ) * Complex.I) - Complex.exp ((y : ℂ) * Complex.I) =
        Complex.exp ((y : ℂ) * Complex.I) * (Complex.exp (Complex.I * ((x - y : ℝ) : ℂ)) - 1) := by
      rw [mul_sub, ← Complex.exp_add, mul_one]; congr 2; push_cast; ring
    rw [this, norm_mul, Complex.norm_exp_ofReal_mul_I, one_mul]
    exact (Real.norm_exp_I_mul_ofReal_sub_one_le).trans (by rwa [Real.norm_eq_abs])
  calc _ = ‖-(Complex.exp ((x : ℂ) * Complex.I) - ∑ i ∈ Finset.range (k + 9), ((x : ℂ) * Complex.I) ^ i / (i.factorial : ℂ)) +
        (Complex.exp ((x : ℂ) * Complex.I) - Complex.exp ((y : ℂ) * Complex.I))‖ := by congr 1; ring
    _ ≤ 1 / 2 ^ k + 1 / 2 ^ k := (norm_add_le _ _).trans (add_le_add (by rw [norm_neg]; exact ht.trans hfac) hrot)
    _ = 2 / 2 ^ k := by ring

end Sys2Proof.Machine
end

