-- ==== Sys2Proof/Laws/SampleEnds.lean ====
section
/-! SUPPORT. The interval of `32767 * Re(Z)` at one precision, and what the refinement answers (spec/42_oscillator.md R143, R159). -/

namespace Sys2Proof.Machine

theorem re_bound (a b : ℤ) (w : ℂ) : |(a : ℝ) * w.re - b * w.im| ≤ ((a.natAbs + b.natAbs : ℕ) : ℝ) * ‖w‖ := by
  have ha : |(a : ℝ)| = a.natAbs := by rw [Nat.cast_natAbs]; push_cast; rfl
  have hb : |(b : ℝ)| = b.natAbs := by rw [Nat.cast_natAbs]; push_cast; rfl
  calc _ ≤ |(a : ℝ) * w.re| + |(b : ℝ) * w.im| := abs_sub _ _
    _ ≤ a.natAbs * ‖w‖ + b.natAbs * ‖w‖ := by
      rw [abs_mul, abs_mul, ha, hb]
      exact add_le_add (mul_le_mul_of_nonneg_left (Complex.abs_re_le_norm w) (by positivity))
        (mul_le_mul_of_nonneg_left (Complex.abs_im_le_norm w) (by positivity))
    _ = _ := by push_cast; ring

/-- `Z.RE` from the rotor. -/
theorem phase_re_eq (z0 : Config.StartValue) (ph : Phase) :
    ph.re z0 = ((z0.re : ℝ) * (Complex.exp ((ph.angle : ℂ) * Complex.I)).re -
      z0.im * (Complex.exp ((ph.angle : ℂ) * Complex.I)).im) / z0.den := by
  unfold Phase.re Phase.value startValue
  set w := Complex.exp ((ph.angle : ℂ) * Complex.I)
  rw [div_mul_eq_mul_div, Complex.div_natCast_re, Complex.mul_re]
  simp

/-- The two ends are roundings of the ends of an interval that holds `32767 * Re(Z)` and has the stated width. -/
theorem sampleEnds_bracket (z0 : Config.StartValue) (hz : 0 < z0.den) (k : Nat) (hk : 2 ≤ k) (ph : Phase) (hd : 0 < ph.den) :
    ∃ lo hi : ℝ, (sampleEnds z0 k ph).1 = rhaReal lo ∧ (sampleEnds z0 k ph).2 = rhaReal hi ∧
      lo ≤ outputValue z0 ph ∧ outputValue z0 ph ≤ hi ∧
      hi - lo ≤ 131068 * ((z0.re.natAbs + z0.im.natAbs : ℕ) : ℝ) / z0.den / 2 ^ k := by
  have hn := cosSin_near k hk ph hd
  have hp := cosSin_den_pos k ph hd
  set t := cosSin k ph with ht
  have hd1 : (0 : ℝ) < z0.den := by exact_mod_cast hz
  have hd2 : (0 : ℝ) < t.2.2 := by exact_mod_cast hp
  have h2k : (0 : ℝ) < 2 ^ k := by positivity
  have hD : 0 < z0.den * t.2.2 * 2 ^ k := by positivity
  set E : ℝ := (halfWidth z0 ph t.2.2 : ℝ) / ((z0.den * t.2.2 * 2 ^ k : ℕ) : ℝ) with hE
  set V : ℝ := ((amp * (z0.re * t.1 - z0.im * t.2.1) * 2 ^ k : ℤ) : ℝ) / ((z0.den * t.2.2 * 2 ^ k : ℕ) : ℝ) with hV
  have hdiff : |outputValue z0 ph - V| ≤ E := by
    set w : ℂ := (((t.1 : ℂ) + (t.2.1 : ℂ) * Complex.I) / (t.2.2 : ℂ)) with hw
    set e := Complex.exp ((ph.angle : ℂ) * Complex.I)
    have hwre : w.re = (t.1 : ℝ) / t.2.2 := by rw [hw, Complex.div_natCast_re]; simp
    have hwim : w.im = (t.2.1 : ℝ) / t.2.2 := by rw [hw, Complex.div_natCast_im]; simp
    have hval : outputValue z0 ph - V = -(32767 / z0.den) * ((z0.re : ℝ) * (w - e).re - z0.im * (w - e).im) := by
      unfold outputValue
      rw [phase_re_eq, hV, Complex.sub_re, Complex.sub_im, hwre, hwim]
      unfold amp; push_cast; field_simp; ring
    rw [hval, abs_mul, abs_neg, abs_of_pos (by positivity)]
    have hb := re_bound z0.re z0.im (w - e)
    have hc : (0 : ℝ) ≤ ((z0.re.natAbs + z0.im.natAbs : ℕ) : ℝ) := by positivity
    calc _ ≤ 32767 / (z0.den : ℝ) * (((z0.re.natAbs + z0.im.natAbs : ℕ) : ℝ) * (if 4 * ph.num % ph.den = 0 then 0 else 2 / 2 ^ k)) := by
          gcongr
          exact hb.trans (mul_le_mul_of_nonneg_left hn hc)
      _ = E := by
          rw [hE]; unfold halfWidth amp
          split_ifs
          · simp
          · push_cast [Nat.cast_natAbs]; field_simp
  have hEle : E ≤ 65534 * ((z0.re.natAbs + z0.im.natAbs : ℕ) : ℝ) / z0.den / 2 ^ k := by
    rw [hE]; unfold halfWidth amp
    split_ifs
    · simp; positivity
    · apply le_of_eq; push_cast [Nat.cast_natAbs]; field_simp; ring
  refine ⟨V - E, V + E, ?_, ?_, ?_, ?_, ?_⟩
  · have : V - E = ((amp * (z0.re * t.1 - z0.im * t.2.1) * 2 ^ k - halfWidth z0 ph t.2.2 : ℤ) : ℝ) / ((z0.den * t.2.2 * 2 ^ k : ℕ) : ℝ) := by
      rw [hV, hE]; push_cast; ring
    rw [this, ← rha_eq_rhaReal _ _ hD]; rfl
  · have : V + E = ((amp * (z0.re * t.1 - z0.im * t.2.1) * 2 ^ k + halfWidth z0 ph t.2.2 : ℤ) : ℝ) / ((z0.den * t.2.2 * 2 ^ k : ℕ) : ℝ) := by
      rw [hV, hE]; push_cast; ring
    rw [this, ← rha_eq_rhaReal _ _ hD]; rfl
  · rw [abs_le] at hdiff; linarith
  · rw [abs_le] at hdiff; linarith
  · calc V + E - (V - E) = 2 * E := by ring
      _ ≤ 2 * (65534 * ((z0.re.natAbs + z0.im.natAbs : ℕ) : ℝ) / z0.den / 2 ^ k) := by linarith
      _ = _ := by ring

/-- What the refinement answers: the agreed value at some precision of its schedule, if the last precision agrees. -/
theorem refineSample_agrees (z0 : Config.StartValue) (ph : Phase) (n k : Nat)
    (hdec : (sampleEnds z0 (2 ^ n * k) ph).1 = (sampleEnds z0 (2 ^ n * k) ph).2) :
    ∃ j, k ≤ j ∧ (sampleEnds z0 j ph).1 = (sampleEnds z0 j ph).2 ∧ refineSample z0 ph n k = (sampleEnds z0 j ph).1 := by
  induction n generalizing k with
  | zero =>
    simp only [pow_zero, one_mul] at hdec
    refine ⟨k, le_rfl, hdec, ?_⟩
    unfold refineSample
    simp only
    split_ifs <;> simp [hdec]
  | succ n ih =>
    unfold refineSample
    simp only
    split_ifs with h
    · exact ⟨k, le_rfl, h, rfl⟩
    · obtain ⟨j, hj, h1, h2⟩ := ih (2 * k) (by rwa [show 2 ^ n * (2 * k) = 2 ^ (n + 1) * k by ring])
      exact ⟨j, by omega, h1, h2⟩

end Sys2Proof.Machine
end

