-- ==== Sys2Proof/Laws/State.lean ====
section
/-! SUPPORT. One lemma per field and per update of the state, so that no later proof unfolds an update. -/

namespace Sys2Proof.Machine

@[simp] theorem respond_valid (st : Status) (p : Payload) (s : State) : (respond st p s).valid = s.valid := rfl
@[simp] theorem respond_rate (st : Status) (p : Payload) (s : State) : (respond st p s).rate = s.rate := rfl
@[simp] theorem respond_z (st : Status) (p : Payload) (s : State) : (respond st p s).z = s.z := rfl
@[simp] theorem respond_inputs (st : Status) (p : Payload) (s : State) : (respond st p s).inputs = s.inputs := rfl
@[simp] theorem respond_responses (st : Status) (p : Payload) (s : State) :
    (respond st p s).responses = s.responses ++ [responseWord st p] := rfl
@[simp] theorem respond_block (st : Status) (p : Payload) (s : State) : (respond st p s).block = s.block := rfl
@[simp] theorem respond_legal (st : Status) (p : Payload) (s : State) : (respond st p s).legal = s.legal := rfl

@[simp] theorem block_valid (s : State) : s.block.valid = s.valid := rfl
@[simp] theorem block_rate (s : State) : s.block.rate = s.rate := rfl
@[simp] theorem block_z (s : State) : s.block.z = s.z := rfl

@[simp] theorem withBlock_valid (b : Block Phase) (s : State) : (s.withBlock b).valid = b.valid := rfl
@[simp] theorem withBlock_rate (b : Block Phase) (s : State) : (s.withBlock b).rate = b.rate := rfl
@[simp] theorem withBlock_z (b : Block Phase) (s : State) : (s.withBlock b).z = b.z := rfl
@[simp] theorem withBlock_inputs (b : Block Phase) (s : State) : (s.withBlock b).inputs = s.inputs := rfl
@[simp] theorem withBlock_responses (b : Block Phase) (s : State) : (s.withBlock b).responses = s.responses := rfl
@[simp] theorem withBlock_block (b : Block Phase) (s : State) : (s.withBlock b).block = b := rfl
@[simp] theorem withBlock_self (s : State) : s.withBlock s.block = s := rfl

@[simp] theorem construct_valid {Z : Type} (r : Rate) (z : Z) : (construct r z).valid = true := rfl
@[simp] theorem construct_rate {Z : Type} (r : Rate) (z : Z) : (construct r z).rate = some r := rfl
@[simp] theorem construct_z {Z : Type} (r : Rate) (z : Z) : (construct r z).z = some z := rfl

@[simp] theorem writeZ_valid {Z : Type} (z : Z) (b : Block Z) : (writeZ z b).valid = b.valid := rfl
@[simp] theorem writeZ_rate {Z : Type} (z : Z) (b : Block Z) : (writeZ z b).rate = b.rate := rfl
@[simp] theorem writeZ_z {Z : Type} (z : Z) (b : Block Z) : (writeZ z b).z = some z := rfl

/-- A reply delivered is a next state with the reply's block and response. -/
@[simp] theorem deliver_next (s : State) (r : Reply Phase) :
    deliver s (.next r) = .next (respond r.status r.payload (s.withBlock r.block)) := rfl

@[simp] theorem resetEvent_valid (s : State) : (resetEvent s).valid = false := rfl
@[simp] theorem resetEvent_rate (s : State) : (resetEvent s).rate = none := rfl
@[simp] theorem resetEvent_z (s : State) : (resetEvent s).z = none := rfl
@[simp] theorem resetEvent_inputs (s : State) : (resetEvent s).inputs = s.inputs := rfl
@[simp] theorem resetEvent_responses (s : State) : (resetEvent s).responses = s.responses := rfl
@[simp] theorem resetEvent_legal (s : State) : (resetEvent s).legal = true := rfl

@[simp] theorem withFetchWord_inputs (s : State) (nbits w : Nat) :
    (s.withFetchWord nbits w).inputs = .command (tableWord nbits w) :: s.inputs := rfl

/-- What is presented plays no part in whether a state is legal. -/
@[simp] theorem legal_with_inputs (s : State) (l : List Input) : ({ s with inputs := l } : State).legal = s.legal := rfl

/-- A legal state is either unconstructed, or holds a legal rate and a phase over that rate (spec/10_state.md R21, R28). -/
theorem legal_cases {s : State} (h : s.Inv) :
    (s.valid = false ∧ s.rate = none ∧ s.z = none) ∨
    ∃ rate z, s.valid = true ∧ s.rate = some rate ∧ s.z = some z ∧ rate ≠ 0#32 ∧ z.den = turnCodes rate ∧ z.num < z.den := by
  unfold State.Inv State.legal at h
  split at h
  · exact .inl ⟨‹_›, ‹_›, ‹_›⟩
  · rename_i rate z h1 h2 h3
    simp only [Bool.and_eq_true, bne_iff_ne, beq_iff_eq, decide_eq_true_eq] at h
    exact .inr ⟨rate, z, h1, h2, h3, h.1.1, h.1.2, h.2⟩
  · exact absurd h (by simp)

/-- The converse of `legal_cases` for a constructed oscillator. -/
theorem legal_of_constructed {s : State} {rate : Rate} {z : Phase} (h1 : s.valid = true) (h2 : s.rate = some rate)
    (h3 : s.z = some z) (h4 : rate ≠ 0#32) (h5 : z.den = turnCodes rate) (h6 : z.num < z.den) : s.Inv := by
  unfold State.Inv State.legal
  rw [h1, h2, h3]
  simp only [Bool.and_eq_true, bne_iff_ne, beq_iff_eq, decide_eq_true_eq]
  exact ⟨⟨h4, h5⟩, h6⟩

/-- A positive rate gives a positive number of codes per turn, below 2^41. -/
theorem turnCodes_pos {rate : Rate} (h : rate ≠ 0#32) : 0 < turnCodes rate := by
  have : rate.toNat ≠ 0 := fun h0 => h (BitVec.eq_of_toNat_eq (by simpa using h0))
  unfold turnCodes freqDen
  omega

theorem turnCodes_lt (rate : Rate) : turnCodes rate < 2 ^ 41 := by
  have := rate.isLt
  unfold turnCodes freqDen
  omega

end Sys2Proof.Machine
end

