-- ==== Sys2Proof/Laws/Exec.lean ====
section
/-! SUPPORT. One spec lemma per meaning, and everything a command, a word and a step can do when they answer a next
state; the provers cite these instead of unfolding. -/

namespace Sys2Proof.Machine

/-- The configuration `exec` runs is an admissible one (spec/42_oscillator.md R141). -/
theorem params_wf : Config.params.wf = true := by decide

/-! The oscillator under any parameters and any carrier. -/

section Oscillator

variable {Z : Type} {p : Config.Params} (c : Carrier Z)

theorem oscNew_unconfigured (hp : p.wf = false) (rate : Rate) (b : Block Z) :
    oscNew p c rate b = .refused .badConfiguration := by
  unfold oscNew whenConfigured
  rw [if_neg (by simp [hp])]

theorem oscNew_zero (hp : p.wf = true) (b : Block Z) : oscNew p c 0#32 b = raise .badRate b := by
  unfold oscNew whenConfigured
  rw [if_pos hp, if_pos rfl]

theorem oscNew_pos (hp : p.wf = true) {rate : Rate} (h : rate ≠ 0#32) (b : Block Z) :
    oscNew p c rate b = finish 0#48 (construct rate (c.start rate)) := by
  unfold oscNew whenConfigured
  rw [if_pos hp, if_neg h]

theorem validBit_eq_zero {b : Block Z} : validBit b = 0#1 ↔ b.valid = false := by
  unfold validBit
  cases b.valid <;> decide

theorem oscTick_unconfigured (hp : p.wf = false) (f : FreqCode) (b : Block Z) :
    oscTick p c f b = .refused .badConfiguration := by
  unfold oscTick whenConfigured
  rw [if_neg (by simp [hp])]

theorem oscTick_invalid (hp : p.wf = true) (f : FreqCode) {b : Block Z} (h : b.valid = false) :
    oscTick p c f b = raise .uninit b := by
  unfold oscTick whenConfigured whenValid
  rw [if_pos hp, if_pos (validBit_eq_zero.mpr h)]

theorem oscTick_no_value (hp : p.wf = true) (f : FreqCode) {b : Block Z} (h1 : b.valid = true)
    (h2 : b.rate = none ∨ b.z = none) : oscTick p c f b = .fault .readWithoutValue := by
  unfold oscTick whenConfigured whenValid
  rw [if_pos hp, if_neg (by rw [validBit_eq_zero, h1]; simp)]
  rcases h2 with h | h
  · rw [h]
  · rw [h]; cases b.rate <;> rfl

theorem oscTick_valid (hp : p.wf = true) (f : FreqCode) {b : Block Z} {rate : Rate} {z : Z} (h1 : b.valid = true)
    (h2 : b.rate = some rate) (h3 : b.z = some z) :
    oscTick p c f b =
      match toI16 (c.sample (c.turn rate f z)) with
      | some smp => finish (samplePayload smp) (writeZ (c.turn rate f z) b)
      | none => .fault .sampleOutOfRange := by
  unfold oscTick whenConfigured whenValid Carrier.tick
  rw [if_pos hp, if_neg (by rw [validBit_eq_zero, h1]; simp), h2, h3]
  simp only
  cases toI16 (c.sample (c.turn rate f z)) <;> rfl

end Oscillator

/-- Every command of `exec` is the same command of the block over the exact carrier, with its reply delivered. -/
theorem exec_eq_commandOn (i : Instr) (s : State) :
    exec i s = deliver s (commandOn Config.params (phaseCarrier Config.params.z0) i s.block) := by
  cases i <;> rfl

/-- The same of every word. -/
theorem perform_eq_wordOn (w : Word) (s : State) :
    perform w s = deliver s (wordOn Config.params (phaseCarrier Config.params.z0) w s.block) := by
  unfold perform wordOn
  cases decode w with
  | ok i => exact exec_eq_commandOn i s
  | error r => rfl

/-! The four meanings. -/

theorem exec_csc (r g b : Channel) (s : State) :
    exec (.csc r g b) s = .next (respond .ok (colourPayload (csc r g b).1 (csc r g b).2.1 (csc r g b).2.2) s) := rfl

theorem exec_ticks (rate : Rate) (dn : DurCode) (s : State) :
    exec (.ticks rate dn) s = .next (respond .ok (countPayload (tickCount rate dn)) s) := rfl

theorem exec_oscnew_zero (s : State) : exec (.oscnew 0#32) s = .next (respond .badRate 0#48 s) := by
  unfold exec execOscnew
  simp only
  rw [oscNew_zero _ params_wf]
  rfl

theorem exec_oscnew_pos {rate : Rate} (h : rate ≠ 0#32) (s : State) :
    exec (.oscnew rate) s =
      .next (respond .ok 0#48 (s.withBlock (construct rate { num := 0, den := turnCodes rate }))) := by
  unfold exec execOscnew
  simp only
  rw [oscNew_pos _ params_wf h]
  rfl

theorem exec_osctick_invalid (f : FreqCode) {s : State} (h : s.valid = false) :
    exec (.osctick f) s = .next (respond .uninit 0#48 s) := by
  unfold exec execOsctick
  simp only
  rw [oscTick_invalid _ params_wf f h]
  rfl

theorem exec_osctick_valid (f : FreqCode) {s : State} {rate : Rate} {z : Phase} (h1 : s.valid = true)
    (h2 : s.rate = some rate) (h3 : s.z = some z) :
    exec (.osctick f) s =
      match toI16 (sampleOf Config.params.z0 (z.rotate (rotor f rate))) with
      | some smp => .next (respond .ok (samplePayload smp) (s.withBlock (writeZ (z.rotate (rotor f rate)) s.block)))
      | none => .fault .sampleOutOfRange := by
  unfold exec execOsctick
  simp only
  rw [oscTick_valid _ params_wf f h1 h2 h3]
  unfold phaseCarrier
  simp only
  cases toI16 (sampleOf Config.params.z0 (z.rotate (rotor f rate))) <;> rfl

theorem exec_osctick_no_value (f : FreqCode) {s : State} (h1 : s.valid = true) (h2 : s.rate = none ∨ s.z = none) :
    exec (.osctick f) s = .fault .readWithoutValue := by
  unfold exec execOsctick
  simp only
  rw [oscTick_no_value _ params_wf f h1 h2]
  rfl

/-- Everything a command can do when it answers a next state. -/
theorem exec_next_cases {i : Instr} {s t : State} (h : exec i s = .next t) :
    (∃ r g b, i = .csc r g b ∧ t = respond .ok (colourPayload (csc r g b).1 (csc r g b).2.1 (csc r g b).2.2) s) ∨
    (∃ rate dn, i = .ticks rate dn ∧ t = respond .ok (countPayload (tickCount rate dn)) s) ∨
    (i = .oscnew 0#32 ∧ t = respond .badRate 0#48 s) ∨
    (∃ rate, rate ≠ 0#32 ∧ i = .oscnew rate ∧
      t = respond .ok 0#48 (s.withBlock (construct rate { num := 0, den := turnCodes rate }))) ∨
    (∃ f, i = .osctick f ∧ s.valid = false ∧ t = respond .uninit 0#48 s) ∨
    (∃ f rate z smp, i = .osctick f ∧ s.valid = true ∧ s.rate = some rate ∧ s.z = some z ∧
      toI16 (sampleOf Config.params.z0 (z.rotate (rotor f rate))) = some smp ∧
      t = respond .ok (samplePayload smp) (s.withBlock (writeZ (z.rotate (rotor f rate)) s.block))) := by
  cases i with
  | csc r g b => rw [exec_csc] at h; injection h with h; exact .inl ⟨r, g, b, rfl, h.symm⟩
  | ticks rate dn => rw [exec_ticks] at h; injection h with h; exact .inr (.inl ⟨rate, dn, rfl, h.symm⟩)
  | oscnew rate =>
    by_cases h0 : rate = 0#32
    · subst h0; rw [exec_oscnew_zero] at h; injection h with h; exact .inr (.inr (.inl ⟨rfl, h.symm⟩))
    · rw [exec_oscnew_pos h0] at h; injection h with h; exact .inr (.inr (.inr (.inl ⟨rate, h0, rfl, h.symm⟩)))
  | osctick f =>
    cases hv : s.valid with
    | false =>
      rw [exec_osctick_invalid f hv] at h; injection h with h
      exact .inr (.inr (.inr (.inr (.inl ⟨f, rfl, rfl, h.symm⟩))))
    | true =>
      cases hr : s.rate with
      | none => rw [exec_osctick_no_value f hv (.inl hr)] at h; cases h
      | some rate =>
        cases hz : s.z with
        | none => rw [exec_osctick_no_value f hv (.inr hz)] at h; cases h
        | some z =>
          rw [exec_osctick_valid f hv hr hz] at h
          split at h
          · rename_i smp hs
            injection h with h
            exact .inr (.inr (.inr (.inr (.inr ⟨f, rate, z, smp, rfl, rfl, rfl, rfl, hs, h.symm⟩))))
          · cases h

/-- No command is ever refused under the configuration `exec` runs. -/
theorem exec_not_refused (i : Instr) (s : State) (r : Refusal) : exec i s ≠ .refused r := by
  intro h
  cases i with
  | csc r g b => rw [exec_csc] at h; cases h
  | ticks rate dn => rw [exec_ticks] at h; cases h
  | oscnew rate =>
    by_cases h0 : rate = 0#32
    · subst h0; rw [exec_oscnew_zero] at h; cases h
    · rw [exec_oscnew_pos h0] at h; cases h
  | osctick f =>
    cases hv : s.valid with
    | false => rw [exec_osctick_invalid f hv] at h; cases h
    | true =>
      cases hr : s.rate with
      | none => rw [exec_osctick_no_value f hv (.inl hr)] at h; cases h
      | some rate =>
        cases hz : s.z with
        | none => rw [exec_osctick_no_value f hv (.inr hz)] at h; cases h
        | some z =>
          rw [exec_osctick_valid f hv hr hz] at h
          split at h <;> cases h

theorem perform_ok {w : Word} {i : Instr} (h : decode w = .ok i) (s : State) : perform w s = exec i s := by
  unfold perform; rw [h]

theorem perform_error {w : Word} {r : Reject} (h : decode w = .error r) (s : State) :
    perform w s = .next (respond .illegal 0#48 s) := by
  unfold perform; rw [h]; rfl

/-- Everything a command word can do when it answers a next state. -/
theorem perform_next_cases {w : Word} {s t : State} (h : perform w s = .next t) :
    (∃ i, decode w = .ok i ∧ exec i s = .next t) ∨ (∃ r, decode w = .error r ∧ t = respond .illegal 0#48 s) := by
  cases hd : decode w with
  | ok i => rw [perform_ok hd] at h; exact .inl ⟨i, rfl, h⟩
  | error r => rw [perform_error hd] at h; injection h with h; exact .inr ⟨r, rfl, h.symm⟩

theorem step_idle {s : State} (h : s.inputs = []) : step s = .next s := by
  unfold step takeInput; rw [h]

theorem step_command {s : State} {w : Word} {rest : List Input} (h : s.inputs = .command w :: rest) :
    step s = perform w { s with inputs := rest } := by
  unfold step takeInput; rw [h]; rfl

theorem step_reset {s : State} {rest : List Input} (h : s.inputs = .reset :: rest) :
    step s = .next (resetEvent { s with inputs := rest }) := by
  unfold step takeInput; rw [h]; rfl

/-- Everything a step can do when it answers a next state. -/
theorem step_next_cases {s t : State} (h : step s = .next t) :
    (s.inputs = [] ∧ t = s) ∨
    (∃ rest, s.inputs = .reset :: rest ∧ t = resetEvent { s with inputs := rest }) ∨
    (∃ w rest, s.inputs = .command w :: rest ∧ perform w { s with inputs := rest } = .next t) := by
  cases hi : s.inputs with
  | nil => rw [step_idle hi] at h; injection h with h; exact .inl ⟨rfl, h.symm⟩
  | cons i rest =>
    cases i with
    | command w => rw [step_command hi] at h; exact .inr (.inr ⟨w, rest, rfl, h⟩)
    | reset => rw [step_reset hi] at h; injection h with h; exact .inr (.inl ⟨rest, rfl, h.symm⟩)

/-- Phases over one denominator add (R159). -/
theorem rotate_same {z r : Phase} (h : z.den = r.den) :
    z.rotate r = { num := (z.num + r.num) % z.den, den := z.den } := by
  unfold Phase.rotate; rw [if_pos h]

/-- What is presented plays no part in what a command word does. -/
theorem perform_with_inputs (w : Word) (s : State) (l : List Input) :
    perform w { s with inputs := l } =
      match perform w s with
      | .next t => .next { t with inputs := l }
      | .fault r => .fault r
      | .refused r => .refused r := by
  obtain ⟨v, rate, z, i, p⟩ := s
  cases hd : decode w with
  | error r => rw [perform_error hd, perform_error hd]; rfl
  | ok i =>
    rw [perform_ok hd, perform_ok hd]
    cases i with
    | csc => rfl
    | ticks => rfl
    | oscnew r =>
      by_cases h : r = 0#32
      · subst h; rfl
      · rw [exec_oscnew_pos h, exec_oscnew_pos h]; rfl
    | osctick f =>
      cases v with
      | false => rw [exec_osctick_invalid f rfl, exec_osctick_invalid f rfl]; rfl
      | true =>
        cases rate with
        | none => rw [exec_osctick_no_value f rfl (.inl rfl), exec_osctick_no_value f rfl (.inl rfl)]
        | some rate =>
          cases z with
          | none => rw [exec_osctick_no_value f rfl (.inr rfl), exec_osctick_no_value f rfl (.inr rfl)]
          | some z =>
            rw [exec_osctick_valid f rfl rfl rfl, exec_osctick_valid f rfl rfl rfl]
            cases toI16 (sampleOf Config.params.z0 (z.rotate (rotor f rate))) <;> rfl

/-- A run of commands, one word at a time. -/
theorem runCommands_cons (w : Word) (ws : List Word) (s : State) :
    runCommands (w :: ws) s =
      match perform w s with
      | .next s' => runCommands ws s'
      | .fault r => .fault r
      | .refused r => .refused r := rfl

/-- The host's `run`, one step at a time, for any machine. -/
theorem run_next (M : Host.Core) (k : Nat) {s t : M.State} (h : M.step s = .next t) : M.run (k + 1) s = M.run k t := by
  conv_lhs => unfold Host.Core.run
  rw [h]

theorem run_fault (M : Host.Core) (k : Nat) {s : M.State} {r : M.Fault} (h : M.step s = .fault r) :
    M.run (k + 1) s = .fault r := by
  unfold Host.Core.run; rw [h]

theorem run_refused (M : Host.Core) (k : Nat) {s : M.State} {r : M.Refusal} (h : M.step s = .refused r) :
    M.run (k + 1) s = .refused r := by
  unfold Host.Core.run; rw [h]

end Sys2Proof.Machine
end

