-- ==== Sys2Proof/Laws/AnyCarrier.lean ====
section
/-! SUPPORT. The small lemmas of the carriers of `Z` and of a run of the block over one of them. -/

namespace Sys2Proof.Machine

section AnyCarrier

variable {Z : Type} (p : Config.Params) (c : Carrier Z)

@[simp] theorem Carrier.after_nil (rate : Rate) : c.after rate [] = c.start rate := rfl

/-- One tick more turns the state the ticks before it left (spec/20_memory.md R48). -/
theorem Carrier.after_concat (rate : Rate) (fs : List FreqCode) (f : FreqCode) :
    c.after rate (fs ++ [f]) = c.turn rate f (c.after rate fs) := by
  unfold Carrier.after
  rw [List.foldl_append]
  rfl

theorem wordOn_ok {w : Word} {i : Instr} (h : decode w = .ok i) (b : Block Z) : wordOn p c w b = commandOn p c i b := by
  unfold wordOn
  rw [h]

theorem wordOn_error {w : Word} {r : Reject} (h : decode w = .error r) (b : Block Z) :
    wordOn p c w b = raise .illegal b := by
  unfold wordOn
  rw [h]

@[simp] theorem runOn_nil (b : Block Z) : runOn p c [] b = .next (b, []) := rfl

/-- A run whose first word is answered goes on from the block that word leaves. -/
theorem runOn_cons_next {w : Word} {ws : List Word} {b b' : Block Z} {r : Reply Z} {rsps : List Word}
    (h : wordOn p c w b = .next r) (h2 : runOn p c ws r.block = .next (b', rsps)) :
    runOn p c (w :: ws) b = .next (b', responseWord r.status r.payload :: rsps) := by
  unfold runOn
  rw [h]
  simp only [h2]

/-- The same for a word answered `OK`. -/
theorem runOn_cons_finish {w : Word} {ws : List Word} {b b1 b' : Block Z} {payload : Payload} {rsps : List Word}
    (h : wordOn p c w b = finish payload b1) (h2 : runOn p c ws b1 = .next (b', rsps)) :
    runOn p c (w :: ws) b = .next (b', responseWord .ok payload :: rsps) :=
  runOn_cons_next p c (r := { block := b1, status := .ok, payload := payload }) h h2

end AnyCarrier

/-- A tick of the exact carrier is an addition of codes modulo one turn (spec/42_oscillator.md R159). -/
theorem phaseCarrier_turn (z0 : Config.StartValue) {rate : Rate} (f : FreqCode) {z : Phase} (h : z.den = turnCodes rate) :
    (phaseCarrier z0).turn rate f z = { num := (z.num + f.toNat) % turnCodes rate, den := turnCodes rate } := by
  show z.rotate (rotor f rate) = _
  rw [rotate_same h]
  unfold rotor
  rw [h, Nat.add_mod_mod]

/-- After a construction and a row of ticks the exact carrier holds the sum of the codes modulo one turn (R146, R159). -/
theorem phaseCarrier_after (z0 : Config.StartValue) (rate : Rate) (fs : List FreqCode) :
    (phaseCarrier z0).after rate fs = { num := (fs.map BitVec.toNat).sum % turnCodes rate, den := turnCodes rate } := by
  induction fs using List.reverseRecOn with
  | nil => show (⟨0, turnCodes rate⟩ : Phase) = _; simp
  | append_singleton fs f ih =>
    rw [Carrier.after_concat, ih, phaseCarrier_turn z0 f rfl]
    simp

end Sys2Proof.Machine
end

