-- ==== Sys2Proof/Laws/Encoding.lean ====
section
/-! SUPPORT. The fields of the words that the encoder and the responder build (spec/30_encoding.md R61, R70), and what
the decoder answers on a word with known fields. -/

namespace Sys2Proof

/-- Every command is well formed: its operand types are the widths of its fields (R62 to R65). -/
theorem instr_wf (i : Instr) : i.wf = true := by
  cases i with
  | csc r g b =>
    have := r.isLt; have := g.isLt; have := b.isLt
    simp [Instr.wf, Instr.source, Source.wf]; omega
  | ticks rate dn =>
    have := rate.isLt; have := dn.isLt
    simp [Instr.wf, Instr.source, Source.wf]; omega
  | oscnew rate =>
    have := rate.isLt
    simp [Instr.wf, Instr.source, Source.wf]; omega
  | osctick f =>
    have := f.isLt
    simp [Instr.wf, Instr.source, Source.wf]; omega

/-- Two adjacent fields of a word, put together, are one field. -/
theorem bits_join (w : Word) {hi lo lh ll : Nat} (h : hi = lo + ll) :
    bits w hi lh ++ bits w lo ll = bits w lo (lh + ll) :=
  BitVec.extractLsb'_append_extractLsb'_eq_extractLsb' h

/-- The field of all the bits is the word. -/
theorem bits_all (w : Word) : bits w 0 64 = w := BitVec.extractLsb'_eq_self

/-! The fields of an encoded command. -/

theorem opField_encode_csc (r g b : Channel) : opField (encode (.csc r g b)) = 0x1#4 := by
  unfold opField bits encode
  rw [BitVec.extractLsb'_append_eq_of_le (v := 56) (w := 8) (by decide),
    BitVec.extractLsb'_append_eq_of_le (v := 48) (w := 8) (by decide),
    BitVec.extractLsb'_append_eq_of_le (v := 40) (w := 8) (by decide)]
  decide

theorem zero_encode_csc (r g b : Channel) : bits (encode (.csc r g b)) 24 36 = 0#36 := by
  unfold bits encode
  rw [BitVec.extractLsb'_append_eq_of_le (v := 56) (w := 8) (by decide),
    BitVec.extractLsb'_append_eq_of_le (v := 48) (w := 8) (by decide),
    BitVec.extractLsb'_append_eq_of_le (v := 40) (w := 8) (by decide)]
  decide

theorem r_encode_csc (r g b : Channel) : bits (encode (.csc r g b)) 16 8 = r := by
  unfold bits encode
  rw [BitVec.extractLsb'_append_eq_of_le (v := 56) (w := 8) (by decide),
    BitVec.extractLsb'_append_eq_of_le (v := 48) (w := 8) (by decide),
    BitVec.extractLsb'_append_eq_of_add_le (v := 40) (w := 8) (by decide)]
  exact BitVec.extractLsb'_eq_self

theorem g_encode_csc (r g b : Channel) : bits (encode (.csc r g b)) 8 8 = g := by
  unfold bits encode
  rw [BitVec.extractLsb'_append_eq_of_le (v := 56) (w := 8) (by decide),
    BitVec.extractLsb'_append_eq_of_add_le (v := 48) (w := 8) (by decide)]
  exact BitVec.extractLsb'_eq_self

theorem b_encode_csc (r g b : Channel) : bits (encode (.csc r g b)) 0 8 = b := by
  unfold bits encode
  rw [BitVec.extractLsb'_append_eq_of_add_le (v := 56) (w := 8) (by decide)]
  exact BitVec.extractLsb'_eq_self

theorem opField_encode_ticks (rate : Rate) (dn : DurCode) : opField (encode (.ticks rate dn)) = 0x2#4 := by
  unfold opField bits encode
  rw [BitVec.extractLsb'_append_eq_of_le (v := 32) (w := 32) (by decide),
    BitVec.extractLsb'_append_eq_of_le (v := 16) (w := 16) (by decide)]
  decide

theorem zero_encode_ticks (rate : Rate) (dn : DurCode) : bits (encode (.ticks rate dn)) 48 12 = 0#12 := by
  unfold bits encode
  rw [BitVec.extractLsb'_append_eq_of_le (v := 32) (w := 32) (by decide),
    BitVec.extractLsb'_append_eq_of_le (v := 16) (w := 16) (by decide)]
  decide

theorem dn_encode_ticks (rate : Rate) (dn : DurCode) : bits (encode (.ticks rate dn)) 32 16 = dn := by
  unfold bits encode
  rw [BitVec.extractLsb'_append_eq_of_le (v := 32) (w := 32) (by decide),
    BitVec.extractLsb'_append_eq_of_add_le (v := 16) (w := 16) (by decide)]
  exact BitVec.extractLsb'_eq_self

theorem rate_encode_ticks (rate : Rate) (dn : DurCode) : bits (encode (.ticks rate dn)) 0 32 = rate := by
  unfold bits encode
  rw [BitVec.extractLsb'_append_eq_of_add_le (v := 32) (w := 32) (by decide)]
  exact BitVec.extractLsb'_eq_self

theorem opField_encode_oscnew (rate : Rate) : opField (encode (.oscnew rate)) = 0x3#4 := by
  unfold opField bits encode
  rw [BitVec.extractLsb'_append_eq_of_le (v := 32) (w := 32) (by decide)]
  decide

theorem zero_encode_oscnew (rate : Rate) : bits (encode (.oscnew rate)) 32 28 = 0#28 := by
  unfold bits encode
  rw [BitVec.extractLsb'_append_eq_of_le (v := 32) (w := 32) (by decide)]
  decide

theorem rate_encode_oscnew (rate : Rate) : bits (encode (.oscnew rate)) 0 32 = rate := by
  unfold bits encode
  rw [BitVec.extractLsb'_append_eq_of_add_le (v := 32) (w := 32) (by decide)]
  exact BitVec.extractLsb'_eq_self

theorem opField_encode_osctick (f : FreqCode) : opField (encode (.osctick f)) = 0x4#4 := by
  unfold opField bits encode
  rw [BitVec.extractLsb'_append_eq_of_le (v := 32) (w := 32) (by decide)]
  decide

theorem zero_encode_osctick (f : FreqCode) : bits (encode (.osctick f)) 32 28 = 0#28 := by
  unfold bits encode
  rw [BitVec.extractLsb'_append_eq_of_le (v := 32) (w := 32) (by decide)]
  decide

theorem f_encode_osctick (f : FreqCode) : bits (encode (.osctick f)) 0 32 = f := by
  unfold bits encode
  rw [BitVec.extractLsb'_append_eq_of_add_le (v := 32) (w := 32) (by decide)]
  exact BitVec.extractLsb'_eq_self

/-! What the decoder answers on a word with known fields (R66, R68). -/

theorem decode_csc {w : Word} (h : opField w = 0x1#4) (hz : bits w 24 36 = 0#36) :
    decode w = .ok (.csc (bits w 16 8) (bits w 8 8) (bits w 0 8)) := by
  unfold decode; rw [if_pos h, if_pos hz]

theorem decode_ticks {w : Word} (h : opField w = 0x2#4) (hz : bits w 48 12 = 0#12) :
    decode w = .ok (.ticks (bits w 0 32) (bits w 32 16)) := by
  unfold decode; rw [h, if_neg (by decide), if_pos rfl, if_pos hz]

theorem decode_oscnew {w : Word} (h : opField w = 0x3#4) (hz : bits w 32 28 = 0#28) :
    decode w = .ok (.oscnew (bits w 0 32)) := by
  unfold decode; rw [h, if_neg (by decide), if_neg (by decide), if_pos rfl, if_pos hz]

theorem decode_osctick {w : Word} (h : opField w = 0x4#4) (hz : bits w 32 28 = 0#28) :
    decode w = .ok (.osctick (bits w 0 32)) := by
  unfold decode; rw [h, if_neg (by decide), if_neg (by decide), if_neg (by decide), if_pos rfl, if_pos hz]

/-- Everything the decoder can answer: one of the four commands with its fields, or a rejection by name with the reason
that holds of the word. -/
theorem decode_cases (w : Word) :
    (opField w = 0x1#4 ∧ bits w 24 36 = 0#36 ∧ decode w = .ok (.csc (bits w 16 8) (bits w 8 8) (bits w 0 8))) ∨
    (opField w = 0x2#4 ∧ bits w 48 12 = 0#12 ∧ decode w = .ok (.ticks (bits w 0 32) (bits w 32 16))) ∨
    (opField w = 0x3#4 ∧ bits w 32 28 = 0#28 ∧ decode w = .ok (.oscnew (bits w 0 32))) ∨
    (opField w = 0x4#4 ∧ bits w 32 28 = 0#28 ∧ decode w = .ok (.osctick (bits w 0 32))) ∨
    (((opField w = 0x1#4 ∧ bits w 24 36 ≠ 0#36) ∨ (opField w = 0x2#4 ∧ bits w 48 12 ≠ 0#12) ∨
      (opField w = 0x3#4 ∧ bits w 32 28 ≠ 0#28) ∨ (opField w = 0x4#4 ∧ bits w 32 28 ≠ 0#28)) ∧
      decode w = .error .reservedBits) ∨
    (opField w ≠ 0x1#4 ∧ opField w ≠ 0x2#4 ∧ opField w ≠ 0x3#4 ∧ opField w ≠ 0x4#4 ∧ decode w = .error .badOpcode) := by
  unfold decode
  by_cases h1 : opField w = 0x1#4
  · by_cases hz : bits w 24 36 = 0#36 <;> simp [h1, hz]
  by_cases h2 : opField w = 0x2#4
  · by_cases hz : bits w 48 12 = 0#12 <;> simp [h2, hz]
  by_cases h3 : opField w = 0x3#4
  · by_cases hz : bits w 32 28 = 0#28 <;> simp [h3, hz]
  by_cases h4 : opField w = 0x4#4
  · by_cases hz : bits w 32 28 = 0#28 <;> simp [h4, hz]
  · simp [h1, h2, h3, h4]

namespace Machine

/-! The fields of a response word (R70). -/

@[simp] theorem statusField_responseWord (st : Status) (p : Payload) : statusField (responseWord st p) = st.code := by
  unfold statusField bits responseWord
  rw [BitVec.extractLsb'_append_eq_of_le (v := 16) (w := 48) (by decide),
    BitVec.extractLsb'_append_eq_of_le (v := 4) (w := 12) (by decide)]
  exact BitVec.extractLsb'_eq_self

@[simp] theorem zeroField_responseWord (st : Status) (p : Payload) : bits (responseWord st p) 48 12 = 0#12 := by
  unfold bits responseWord
  rw [BitVec.extractLsb'_append_eq_of_le (v := 16) (w := 48) (by decide),
    BitVec.extractLsb'_append_eq_of_add_le (v := 4) (w := 12) (by decide)]
  decide

@[simp] theorem payloadField_responseWord (st : Status) (p : Payload) : payloadField (responseWord st p) = p := by
  unfold payloadField bits responseWord
  rw [BitVec.extractLsb'_append_eq_of_add_le (v := 16) (w := 48) (by decide)]
  exact BitVec.extractLsb'_eq_self

theorem bits_responseWord (st : Status) (p : Payload) (lo len : Nat) (h : lo + len ≤ 48) :
    bits (responseWord st p) lo len = p.extractLsb' lo len := by
  unfold bits responseWord
  rw [BitVec.extractLsb'_append_eq_of_add_le (v := 16) (w := 48) h]

/-- A response word says which status and which payload it was built from. -/
theorem responseWord_inj {st st' : Status} {p p' : Payload} (h : responseWord st p = responseWord st' p') :
    st = st' ∧ p = p' := by
  have h1 := congrArg statusField h
  have h2 := congrArg payloadField h
  simp only [statusField_responseWord, payloadField_responseWord] at h1 h2
  refine ⟨?_, h2⟩
  cases st <;> cases st' <;> first | rfl | exact absurd h1 (by decide)

end Machine

end Sys2Proof
end

