-- ==== Sys2Proof/Laws/Host.lean ====
section
/-! SUPPORT. What the documented host gets from the block: one lemma per way of asking it (spec/43_host_sequencer.md R185,
R186, R194, R195). -/

namespace Sys2Proof.Machine

/-- A command the block answers `OK` gives the host its response word and the block's new state. -/
theorem ask_ok {i : Instr} {s t : State} {rsp : Word} (hd : decode (encode i) = .ok i) (h : exec i s = .next t)
    (h2 : t.responses = s.responses ++ [rsp]) (h3 : statusField rsp = Status.ok.code) : ask i s = .ok (rsp, t) := by
  unfold ask
  rw [perform_ok hd, h]
  simp only [h2, List.getLast?_append, List.getLast?_singleton, Option.some_or, if_pos h3]

@[simp] theorem askAll_nil (s : State) : askAll [] s = .ok ([], s) := rfl

theorem askAll_cons_ok {i : Instr} {is : List Instr} {s t u : State} {rsp : Word} {rsps : List Word}
    (h : ask i s = .ok (rsp, t)) (h2 : askAll is t = .ok (rsps, u)) : askAll (i :: is) s = .ok (rsp :: rsps, u) := by
  unfold askAll
  rw [h]
  simp only [h2]

@[simp] theorem Waveform.samples_nil (s : State) : Waveform.samples { remaining := [] } s = .ok ([], s) := rfl

/-- The whole sequence is its first element and then the rest of it, each taken by `next` (R195). -/
theorem Waveform.samples_of_next {w w' : Waveform} {s t u : State} {smp : Sample} {smps : List Sample}
    (h : w.next s = .ok (some (smp, w', t))) (h2 : w'.samples t = .ok (smps, u)) : w.samples s = .ok (smp :: smps, u) := by
  obtain ⟨fs⟩ := w
  cases fs with
  | nil => unfold Waveform.next at h; injection h with h; cases h
  | cons f fs =>
    unfold Waveform.next at h
    simp only at h
    cases ha : ask (.osctick f) s with
    | error e => rw [ha] at h; cases h
    | ok x =>
      rw [ha] at h
      injection h with h
      injection h with h
      cases h
      unfold Waveform.samples at h2 ⊢
      simp only [List.map_cons] at h2 ⊢
      cases hb : askAll (fs.map Instr.osctick) x.2 with
      | error e => rw [hb] at h2; cases h2
      | ok y =>
        rw [hb] at h2
        cases h2
        rw [askAll_cons_ok ha hb]
        rfl

/-- A decoded image of the protocol's dimensions is encoded as its raw buffer is (R182). -/
theorem encodeDecodedCommands_eq (hp : HostParams) (rgb : List Byte) (rate : Rate) :
    encodeDecodedCommands hp imageWidth imageHeight rgb rate = encodeCommands hp rgb rate := by
  unfold encodeDecodedCommands encodeCommands buildDecoded
  rw [if_neg (fun h => h rfl), if_neg (fun h => h rfl)]

end Sys2Proof.Machine
end

