-- ==== Sys2Proof/Laws/PerInstr.lean ====
section
/-! SUPPORT. Statements made per command: the family OwnFields says that a command is well formed and that its word
carries its own opcode and zeros in its format's `zero` field (spec/30_encoding.md R61, R66). -/

namespace Sys2Proof.Laws.OwnFields

/-- The opcode and the place of the `zero` field of a command's format (R61). -/
def format : Instr → BitVec 4 × Nat × Nat
  | .csc _ _ _ => (0x1#4, 24, 36)
  | .ticks _ _ => (0x2#4, 48, 12)
  | .oscnew _ => (0x3#4, 32, 28)
  | .osctick _ => (0x4#4, 32, 28)

/-- A command is well formed, and its word carries its opcode and a `zero` field of zeros. -/
def Statement (i : Instr) : Prop :=
  i.wf = true ∧ opField (encode i) = (format i).1 ∧ bits (encode i) (format i).2.1 (format i).2.2 = 0#(format i).2.2

theorem csc (r g b : Channel) : Statement (.csc r g b) :=
  ⟨instr_wf _, opField_encode_csc r g b, zero_encode_csc r g b⟩

theorem ticks (rate : Rate) (dn : DurCode) : Statement (.ticks rate dn) :=
  ⟨instr_wf _, opField_encode_ticks rate dn, zero_encode_ticks rate dn⟩

theorem oscnew (rate : Rate) : Statement (.oscnew rate) :=
  ⟨instr_wf _, opField_encode_oscnew rate, zero_encode_oscnew rate⟩

theorem osctick (f : FreqCode) : Statement (.osctick f) :=
  ⟨instr_wf _, opField_encode_osctick f, zero_encode_osctick f⟩

end Sys2Proof.Laws.OwnFields
end

