-- ==== Sys2Proof/Laws/Separation.lean ====
section
/-! SUPPORT. Why the refinement always decides for the default `Z0`: `32767*Re(Z)` keeps a computable distance from every
rounding tie (spec/42_oscillator.md R151). -/

namespace Sys2Proof.Machine

theorem abs_sin_nat_mul_le (n : ℕ) (x : ℝ) : |Real.sin (n * x)| ≤ n * |Real.sin x| := by
  induction n with
  | zero => simp
  | succ n ih =>
    have : ((n + 1 : ℕ) : ℝ) * x = n * x + x := by push_cast; ring
    rw [this, Real.sin_add]
    calc _ ≤ |Real.sin (n * x) * Real.cos x| + |Real.cos (n * x) * Real.sin x| := abs_add_le _ _
      _ ≤ |Real.sin (n * x)| * 1 + 1 * |Real.sin x| := by
        rw [abs_mul, abs_mul]
        exact add_le_add (mul_le_mul_of_nonneg_left (Real.abs_cos_le_one _) (abs_nonneg _))
          (mul_le_mul_of_nonneg_right (Real.abs_cos_le_one _) (abs_nonneg _))
      _ ≤ _ := by push_cast; linarith

/-- Multiplying two angles by `n` brings their cosines apart by at most `n^2`. -/
theorem abs_cos_nat_mul_sub_le (n : ℕ) (x y : ℝ) :
    |Real.cos (n * x) - Real.cos (n * y)| ≤ (n : ℝ) ^ 2 * |Real.cos x - Real.cos y| := by
  rw [Real.cos_sub_cos, Real.cos_sub_cos]
  have e1 : (n * x + n * y) / 2 = n * ((x + y) / 2) := by ring
  have e2 : (n * x - n * y) / 2 = n * ((x - y) / 2) := by ring
  rw [e1, e2]
  simp only [abs_mul, abs_neg, abs_two]
  have h1 := abs_sin_nat_mul_le n ((x + y) / 2)
  have h2 := abs_sin_nat_mul_le n ((x - y) / 2)
  have h3 := mul_le_mul h1 h2 (abs_nonneg _) (by positivity)
  nlinarith

/-- `b^n * 2*cos(n*psi)` for `2*cos(psi) = a/b`, an integer -/
def cosMultiple (a b : ℤ) : ℕ → ℤ
  | 0 => 2
  | 1 => a
  | n + 2 => a * cosMultiple a b (n + 1) - b ^ 2 * cosMultiple a b n

theorem cosMultiple_eq (a b : ℤ) (psi : ℝ) (h : 2 * b * Real.cos psi = a) (n : ℕ) :
    (cosMultiple a b n : ℝ) = 2 * b ^ n * Real.cos (n * psi) ∧
    (cosMultiple a b (n + 1) : ℝ) = 2 * b ^ (n + 1) * Real.cos ((n + 1 : ℕ) * psi) := by
  induction n with
  | zero => simp [cosMultiple, h]
  | succ n ih =>
    refine ⟨ih.2, ?_⟩
    rw [cosMultiple]
    push_cast
    rw [ih.1, ih.2, ← h]
    have e1 : ((n : ℝ) + 1 + 1) * psi = (n + 1) * psi + psi := by ring
    have e2 : (n : ℝ) * psi = (n + 1) * psi - psi := by ring
    push_cast
    rw [e1, Real.cos_add, e2, Real.cos_sub]
    ring

theorem cosMultiple_modEq (a b : ℤ) (n : ℕ) : cosMultiple a b (n + 1) ≡ a ^ (n + 1) [ZMOD b] := by
  induction n with
  | zero => simp [cosMultiple, Int.ModEq]
  | succ n ih =>
    rw [cosMultiple, pow_succ' a (n + 1)]
    have h1 := ih.mul_left a
    have h2 : b ^ 2 * cosMultiple a b n ≡ 0 [ZMOD b] :=
      (Int.modEq_zero_iff_dvd).mpr (Dvd.dvd.mul_right (dvd_pow_self b two_ne_zero) _)
    simpa using h1.sub h2

/-- A rational with denominator at least 2 is far from twice the cosine of a rational angle: `2*cos` of it is an algebraic
integer of degree at most `n`. -/
theorem cos_sep (a b : ℤ) (hb : 2 ≤ b) (hab : IsCoprime a b) (ha : |(a : ℝ)| ≤ 2 * b) (n : ℕ) (hn : 1 ≤ n) (t : ℝ)
    (ht : Real.cos (n * t) = 1) : 1 / (2 * (n : ℝ) ^ 2 * b ^ n) ≤ |Real.cos t - a / (2 * b)| := by
  have hb' : (0 : ℝ) < b := by exact_mod_cast (by omega : 0 < b)
  have hr := abs_le.mp ha
  set psi := Real.arccos (a / (2 * b)) with hpsi
  have hc : Real.cos psi = a / (2 * b) := Real.cos_arccos
    (by rw [le_div_iff₀ (by positivity)]; linarith) (by rw [div_le_iff₀ (by positivity)]; linarith)
  have h2 : 2 * b * Real.cos psi = a := by rw [hc]; field_simp
  obtain ⟨m, rfl⟩ : ∃ m, n = m + 1 := ⟨n - 1, by omega⟩
  have hv := (cosMultiple_eq a b psi h2 m).2
  have hne : cosMultiple a b (m + 1) ≠ 2 * b ^ (m + 1) := by
    intro h
    have hm := cosMultiple_modEq a b m
    rw [h] at hm
    have h0 : (2 * b ^ (m + 1) : ℤ) ≡ 0 [ZMOD b] :=
      (Int.modEq_zero_iff_dvd).mpr (Dvd.dvd.mul_left (dvd_pow_self b (by omega)) _)
    have hd : b ∣ a ^ (m + 1) := (Int.modEq_zero_iff_dvd).mp (hm.symm.trans h0)
    have := (hab.pow_left (m := m + 1)).isUnit_of_dvd' hd dvd_rfl
    rcases Int.isUnit_iff.mp this with h | h <;> omega
  have hge : (1 : ℝ) ≤ |(cosMultiple a b (m + 1) : ℝ) - 2 * b ^ (m + 1)| := by
    have : 1 ≤ |cosMultiple a b (m + 1) - 2 * b ^ (m + 1)| := Int.one_le_abs (sub_ne_zero.mpr hne)
    exact_mod_cast this
  have hle := abs_cos_nat_mul_sub_le (m + 1) psi t
  rw [ht, hc] at hle
  have hpow : (0 : ℝ) < 2 * b ^ (m + 1) := by positivity
  have h3 : 1 ≤ 2 * (b : ℝ) ^ (m + 1) * |Real.cos ((m + 1 : ℕ) * psi) - 1| := by
    rw [hv] at hge
    have : (2 * (b : ℝ) ^ (m + 1) * Real.cos ((m + 1 : ℕ) * psi) - 2 * b ^ (m + 1)) =
        2 * b ^ (m + 1) * (Real.cos ((m + 1 : ℕ) * psi) - 1) := by ring
    rwa [this, abs_mul, abs_of_pos hpow] at hge
  rw [abs_sub_comm, div_le_iff₀ (by positivity)]
  calc (1 : ℝ) ≤ 2 * (b : ℝ) ^ (m + 1) * |Real.cos ((m + 1 : ℕ) * psi) - 1| := h3
    _ ≤ 2 * (b : ℝ) ^ (m + 1) * (((m + 1 : ℕ) : ℝ) ^ 2 * |a / (2 * b) - Real.cos t|) := by gcongr
    _ = _ := by ring

/-- No half-integer is near `23166.269 * cos(t)` when `n*t` is a whole number of turns. -/
theorem tie_gap (n : ℕ) (hn : 1 ≤ n) (t : ℝ) (ht : Real.cos (n * t) = 1) (m : ℤ) :
    23166 / (2 * (n : ℝ) ^ 2 * 23166269 ^ n) ≤ |23166269 / 1000 * Real.cos t - (m + 1 / 2)| := by
  set r : ℝ := (2 * m + 1) * 500 / 23166269 with hr
  have hv : 23166269 / 1000 * Real.cos t - (m + 1 / 2) = 23166269 / 1000 * (Real.cos t - r) := by rw [hr]; ring
  have hn1 : (1 : ℝ) ≤ (n : ℝ) ^ 2 := by
    have : (1 : ℝ) ≤ n := by exact_mod_cast hn
    nlinarith
  have hpow1 : (23166269 : ℝ) ≤ 23166269 ^ n := le_self_pow₀ (by norm_num) (by omega)
  rw [hv, abs_mul, abs_of_pos (by norm_num)]
  suffices 1 / (2 * (n : ℝ) ^ 2 * 23166269 ^ n) ≤ |Real.cos t - r| by
    calc _ = 23166 * (1 / (2 * (n : ℝ) ^ 2 * 23166269 ^ n)) := by ring
      _ ≤ 23166269 / 1000 * |Real.cos t - r| := mul_le_mul (by norm_num) this (by positivity) (by norm_num)
  by_cases hbig : 23166269 < |(2 * m + 1) * 500|
  · have h1 : (23166270 : ℝ) ≤ |((2 * m + 1) * 500 : ℝ)| := by
      have : 23166270 ≤ |(2 * m + 1) * 500| := by omega
      exact_mod_cast this
    have h2 : 1 + 1 / 23166269 ≤ |r| := by
      rw [hr, abs_div, abs_of_pos (by norm_num : (0:ℝ) < 23166269), le_div_iff₀ (by norm_num)]
      have : ((1 : ℝ) + 1 / 23166269) * 23166269 = 23166270 := by norm_num
      rw [this]; exact h1
    have h3 := Real.abs_cos_le_one t
    have h4 : |r| - |Real.cos t| ≤ |Real.cos t - r| := by rw [abs_sub_comm]; exact abs_sub_abs_le_abs_sub _ _
    have h5 : 1 / (2 * (n : ℝ) ^ 2 * 23166269 ^ n) ≤ 1 / 23166269 := by
      apply one_div_le_one_div_of_le (by norm_num)
      nlinarith
    linarith
  · have hsm : |(2 * m + 1) * 500| ≤ 23166269 := by omega
    set a : ℤ := (2 * m + 1) * 1000 with ha
    set g : ℤ := (Int.gcd a 23166269 : ℤ) with hg
    have hgpos : 0 < g := by
      rw [hg]; exact_mod_cast Int.gcd_pos_of_ne_zero_right a (by norm_num)
    obtain ⟨a', ha'⟩ : g ∣ a := Int.gcd_dvd_left ..
    obtain ⟨b', hb'⟩ : g ∣ (23166269 : ℤ) := Int.gcd_dvd_right ..
    have hcop : IsCoprime a' b' := by
      rw [Int.isCoprime_iff_gcd_eq_one]
      have h1 : Int.gcd (g * a') (g * b') = g.natAbs * Int.gcd a' b' := Int.gcd_mul_left ..
      rw [← ha', ← hb'] at h1
      have h2 : g.natAbs = Int.gcd a 23166269 := by rw [hg]; simp
      rw [h2] at h1
      have h3 : 0 < Int.gcd a 23166269 := Int.gcd_pos_of_ne_zero_right a (by norm_num)
      nlinarith
    have hb'pos : 0 < b' := by nlinarith
    have hb'2 : 2 ≤ b' := by
      by_contra hlt
      have hb1 : b' = 1 := by omega
      have hdiv : (23166269 : ℤ) ∣ (2 * m + 1) * 1000 := ⟨a', by rw [← ha, ha', hb', hb1, mul_one]⟩
      have hc2 : IsCoprime (23166269 : ℤ) 1000 := by
        rw [Int.isCoprime_iff_gcd_eq_one]; decide
      obtain ⟨c, hc⟩ := hc2.dvd_of_dvd_mul_right hdiv
      have := abs_le.mp hsm
      omega
    have hb'le : b' ≤ 23166269 := by nlinarith
    have hgR : (0 : ℝ) < g := by exact_mod_cast hgpos
    have hbR : (0 : ℝ) < b' := by exact_mod_cast hb'pos
    have haR : (2 * (m : ℝ) + 1) * 1000 = g * a' := by exact_mod_cast ha.symm.trans ha'
    have hb23 : (23166269 : ℝ) = g * b' := by exact_mod_cast hb'
    have hre : r = a' / (2 * b') := by
      rw [hr, hb23, show (2 * (m : ℝ) + 1) * 500 = g * a' / 2 by linarith]
      field_simp
    have habs : |(a' : ℝ)| ≤ 2 * b' := by
      have h1 : |((2 * m + 1) * 500 : ℝ)| ≤ 23166269 := by exact_mod_cast hsm
      rw [show ((2 * m + 1) * 500 : ℝ) = g * a' / 2 by linarith, hb23, abs_div, abs_mul, abs_of_pos hgR, abs_two] at h1
      have : (g : ℝ) * |(a' : ℝ)| ≤ g * (2 * b') := by linarith
      exact le_of_mul_le_mul_left this hgR
    have hs := cos_sep a' b' hb'2 hcop habs n hn t ht
    rw [hre]
    refine le_trans ?_ hs
    apply one_div_le_one_div_of_le (by positivity)
    have : (b' : ℝ) ^ n ≤ 23166269 ^ n := by
      apply pow_le_pow_left₀ hbR.le; exact_mod_cast hb'le
    gcongr

/-- At a precision of `25*den + 90` and more the two ends agree for the default starting value (log entry 8). -/
theorem sampleEnds_decided (ph : Phase) (hd : 0 < ph.den) (hsz : ph.den < 2 ^ 41) (k : ℕ) (hk : 25 * ph.den + 90 ≤ k) :
    (sampleEnds Config.defaultStart k ph).1 = (sampleEnds Config.defaultStart k ph).2 := by
  obtain ⟨lo, hi, e1, e2, l1, l2, l3⟩ := sampleEnds_bracket Config.defaultStart (by decide) k (by omega) ph hd
  rw [e1, e2]
  have hcos : Real.cos (ph.den * ph.angle) = 1 := by
    have hd' : (ph.den : ℝ) ≠ 0 := by exact_mod_cast hd.ne'
    have : (ph.den : ℝ) * ph.angle = ph.num * (2 * Real.pi) := by unfold Phase.angle; field_simp
    rw [this]; exact Real.cos_nat_mul_two_pi _
  have hval : outputValue Config.defaultStart ph = 23166269 / 1000 * Real.cos ph.angle := by
    unfold outputValue
    rw [phase_re_eq, Complex.exp_ofReal_mul_I_re]
    simp [Config.defaultStart]; ring
  refine rhaReal_eq_of_gap l1 l2 (lt_of_le_of_lt l3 ?_) (g := 23166 / (2 * (ph.den : ℝ) ^ 2 * 23166269 ^ ph.den))
    (fun m => by rw [hval]; exact tie_gap ph.den hd ph.angle hcos m)
  have hsz' : (ph.den : ℝ) ≤ 2 ^ 41 := by exact_mod_cast hsz.le
  have hn : (1 : ℝ) ≤ ph.den := by exact_mod_cast hd
  have h1 : (2 : ℝ) * (ph.den : ℝ) ^ 2 * 23166269 ^ ph.den ≤ 2 ^ 83 * 2 ^ (25 * ph.den) := by
    have a1 : (ph.den : ℝ) ^ 2 ≤ (2 ^ 41) ^ 2 := pow_le_pow_left₀ (by positivity) hsz' 2
    have a2 : (23166269 : ℝ) ^ ph.den ≤ 2 ^ (25 * ph.den) := by
      rw [pow_mul]; exact pow_le_pow_left₀ (by norm_num) (by norm_num) _
    calc _ ≤ (2 : ℝ) * (2 ^ 41) ^ 2 * 2 ^ (25 * ph.den) := by gcongr
      _ = _ := by rw [← pow_mul, ← pow_succ']
  have h2 : (2 : ℝ) ^ 83 * 2 ^ (25 * ph.den) * 128 ≤ 2 ^ k := by
    calc (2 : ℝ) ^ 83 * 2 ^ (25 * ph.den) * 128 = 2 ^ (25 * ph.den + 90) := by rw [pow_add]; ring
      _ ≤ 2 ^ k := pow_le_pow_right₀ (by norm_num) hk
  have h3 : ((131068 : ℝ) * ((Config.defaultStart.re.natAbs + Config.defaultStart.im.natAbs : ℕ) : ℝ) / (Config.defaultStart.den : ℝ)) ≤ 92666 := by
    simp [Config.defaultStart]; norm_num
  have hp : (0 : ℝ) < 2 * (ph.den : ℝ) ^ 2 * 23166269 ^ ph.den := by positivity
  have hk0 : (0 : ℝ) < 2 ^ k := by positivity
  calc _ ≤ 92666 / (2 : ℝ) ^ k := by gcongr
    _ < _ := by
      rw [div_lt_div_iff₀ hk0 hp]
      nlinarith

end Sys2Proof.Machine
end

