-- ==== Sys2Proof/Tests/Slice0.lean ====
section
/-! SUPPORT. Tests, each about one step on a small state, with expected values from spec/95_test_vectors.md or worked from
the rules; and a witness for the hypotheses of every statement that has hypotheses. -/

namespace Sys2Proof.Machine.Tests

/-- A state with the oscillator constructed: rate 8000, phase `num/4080000` (spec/95_test_vectors.md O1 to O4). -/
def at8000 (num : Nat) (inputs : List Input) : State :=
  { valid := true, rate := some 8000#32, z := some { num := num, den := 4080000 }, inputs := inputs, responses := [] }

/-- The state a result answers, if it answers one. -/
def answered : Result → Option State
  | .next t => some t
  | _ => none

/-- The response words of the state a result answers. -/
def words (r : Result) : List Word :=
  match answered r with
  | some t => t.responses
  | none => []

theorem next_of_answered {r : Result} (h : (answered r).isSome = true) : ∃ t, r = .next t := by
  cases r with
  | next t => exact ⟨t, rfl⟩
  | fault r => cases h
  | refused r => cases h

theorem next_of_eq {r : Result} {t : State} (h : answered r = some t) : r = .next t := by
  cases r with
  | next t' => injection h with h; rw [h]
  | fault r => cases h
  | refused r => cases h

/-! Well-formedness: an ill-formed term for each check (R75, R77, R141, R152) -/

theorem test_wf_csc : Source.wf (.csc 255 255 255) = true ∧ Source.wf (.csc 256 0 0) = false ∧
    Source.wf (.csc 0 256 0) = false ∧ Source.wf (.csc 0 0 256) = false := by decide

theorem test_wf_ticks : Source.wf (.ticks 4294967295 65535) = true ∧ Source.wf (.ticks 4294967296 0) = false ∧
    Source.wf (.ticks 0 65536) = false := by decide

theorem test_wf_oscillator : Source.wf (.oscnew 4294967295) = true ∧ Source.wf (.oscnew 4294967296) = false ∧
    Source.wf (.osctick 4294967295) = true ∧ Source.wf (.osctick 4294967296) = false := by decide

theorem test_wf_pseudo : Source.wf (.segment .sep 4294967296) = false ∧ Source.wf (.osctickHz 8421504) = true ∧
    Source.wf (.osctickHz 8421505) = false ∧ Source.wf (.osctickLuma 256) = false ∧
    Source.wf (.osctickAvg 511) = false := by decide

theorem test_wf_params : Config.params.wf = true ∧
    Config.Params.wf ⟨⟨707, 0, 0⟩, 0, 1⟩ = false ∧ Config.Params.wf ⟨⟨707, 0, 1000⟩, 0, 0⟩ = false ∧
    Config.Params.wf ⟨⟨0, 0, 1000⟩, 1, 4⟩ = false ∧ Config.Params.wf ⟨⟨0, 706, 1000⟩, 0, 1⟩ = false ∧
    Config.Params.wf ⟨⟨0, 708, 1000⟩, 0, 1⟩ = false ∧ Config.Params.wf ⟨⟨707, 0, 1000⟩, 3, 10⟩ = false := by decide

/-- The bound on `EPS_MAG` is 0.2930152... (R152). -/
theorem test_wf_params_edge : Config.Params.wf ⟨⟨707, 0, 1000⟩, 2930152, 10000000⟩ = true ∧
    Config.Params.wf ⟨⟨707, 0, 1000⟩, 2930153, 10000000⟩ = false := by decide

/-! Decoding: words written out bit by bit from the formats of R61 -/

theorem test_decode_csc :
    decode 0b0001000000000000000000000000000000000000000011000010001000111000#64 = .ok (.csc 12#8 34#8 56#8) := by decide

theorem test_decode_ticks :
    decode 0b0010000000000000000000000101101000000000000000001011101110000000#64 = .ok (.ticks 48000#32 90#16) := by decide

theorem test_decode_oscnew :
    decode 0b0011000000000000000000000000000000000000000000000001111101000000#64 = .ok (.oscnew 8000#32) := by decide

theorem test_decode_osctick :
    decode 0b0100000000000000000000000000000000000000000011000001000001001000#64 = .ok (.osctick 790600#32) := by decide

/-- R68: opcodes 0, 5 and 15, and the lowest and the highest bit of each `zero` field. -/
theorem test_decode_illegal :
    ([0x0000000000000000#64, 0x5000000000000000#64, 0xF000000000000000#64, 0xFFFFFFFFFFFFFFFF#64].all fun w =>
      decode w == .error .badOpcode) ∧
    ([0x1000000001000000#64, 0x1800000000000000#64, 0x2001000000000001#64, 0x2800000000000001#64, 0x3000000100000000#64,
      0x3800000000000001#64, 0x4000000100000000#64, 0x4800000000000000#64].all fun w =>
      decode w == .error .reservedBits) := by decide

/-- R47: the byte with bits 7:0 comes first; seven bytes are no command word. -/
theorem test_decode_bytes :
    decodeBytes [0x40#8, 0x1F#8, 0#8, 0#8, 0#8, 0#8, 0#8, 0x30#8, 0xAA#8] = .ok (.oscnew 8000#32, [0xAA#8]) ∧
    decodeBytes [0x40#8, 0x1F#8, 0#8, 0#8, 0#8, 0#8, 0#8] = .error .truncated := by decide

theorem test_fetch_word : answered (step (State.reset.withFetchWord 64 0x2000005A0000BB80)) =
    some { State.reset with responses := [0x00000000000001B0#64] } := by decide +kernel

/-! One step of each command -/

/-- The vector nearest to an integer boundary: `CSC 0, 175, 247`. -/
theorem test_csc_boundary : words (exec (.csc 0#8 175#8 247#8) State.reset) = [0x000000000080B92D#64] := by decide

/-- Grey 114, where a binary64 evaluation gives 127. -/
theorem test_csc_grey : words (exec (.csc 114#8 114#8 114#8) (at8000 0 [])) = [0x0000000000718080#64] := by decide

/-- 48000 Hz, 0.009 s: 432 and not 431. -/
theorem test_ticks_exact : words (exec (.ticks 48000#32 90#16) State.reset) = [0x00000000000001B0#64] := by decide

/-- The largest count (R73). -/
theorem test_ticks_largest :
    words (exec (.ticks 4294967295#32 65535#16) State.reset) = [0x000000068DB22D07#64] := by decide

/-- E14: construction from reset. -/
theorem test_oscnew : answered (exec (.oscnew 8000#32) State.reset) =
    some { at8000 0 [] with responses := [0x0000000000000000#64] } := by decide +kernel

/-- E16: rate 0 while constructed changes nothing. -/
theorem test_oscnew_zero : answered (exec (.oscnew 0#32) (at8000 1020000 [])) =
    some { at8000 1020000 [] with responses := [0x2000000000000000#64] } := by decide +kernel

/-- E17: a quarter turn from phase 1/4 gives -23166, not sign-extended. -/
theorem test_osctick_quarter : answered (exec (.osctick 1020000#32) (at8000 1020000 [])) =
    some { at8000 2040000 [] with responses := [0x000000000000A582#64] } := by decide +kernel

/-- O8 row 2, the nearest tie of the vectors: 21284 and not 21285. -/
theorem test_osctick_near_tie :
    words (exec (.osctick 790600#32)
      { valid := true, rate := some 48000#32, z := some { num := 790600, den := 24480000 }, inputs := [], responses := [] }) =
    [0x0000000000005324#64] := by decide +kernel

/-- U7: with `Z0 = (46333/65534, 0)` and a whole turn the value is exactly 23166.5, a tie that goes to 23167. -/
theorem test_tie : sampleOf ⟨46333, 0, 65534⟩ { num := 0, den := 4080000 } = 23167 ∧
    sampleOf ⟨46333, 0, 65534⟩ { num := 2040000, den := 4080000 } = -23167 := by decide +kernel

/-- E18: an illegal word rotates nothing. -/
theorem test_illegal : answered (step (at8000 2040000 [.command 0x4000000100000000#64])) =
    some { at8000 2040000 [] with responses := [0x1000000000000000#64] } := by decide +kernel

/-- E22: the reset event answers nothing. -/
theorem test_reset : answered (step (at8000 1020000 [.reset])) = some State.reset := by decide +kernel

/-! The assembler (R75, R77) and the host (R189, L1-9) -/

theorem test_assemble :
    assemble ["; one tone".toList, "OSCNEW 0x1F40".toList, "  OSCTICK.HZ 2000 ; 2 kHz".toList] =
      .ok [0x3000000000001F40#64, 0x40000000000F9060#64] ∧
    assembleLine "CSC 256, 0, 0".toList = .error .operandRange ∧ assembleLine "JUMP 4".toList = .error .unknownMnemonic ∧
    assembleLine "OSCTICK".toList = .error .operandCount ∧ assembleLine "OSCTICK 1F".toList = .error .badNumber := by decide

/-- R191 with N7: an average of 128 and 128 is 969800 under every reading (L1-1, P5); of 16 and 17 it is 16.5, 16 or 17. -/
theorem test_chroma_mean :
    (ChromaMean.exact.code 256 = 969800 ∧ (ChromaMean.integer fun _ => true).code 256 = 969800 ∧
      (ChromaMean.integer fun _ => false).code 256 = 969800) ∧
    ChromaMean.exact.code 33 = 791400 ∧ (ChromaMean.integer fun _ => false).code 33 = 790600 ∧
    (ChromaMean.integer fun _ => true).code 33 = 792200 := by decide

theorem test_column_tie : roundDiv (fun _ => true) (319 * 637) 638 = 319 ∧ roundDiv (fun _ => false) (319 * 637) 638 = 318 ∧
    roundDiv (fun _ => true) (319 * 703) 704 = 319 := by decide

/-- P3: the seven samples of the tone sequence as 14 bytes. -/
theorem test_waveform : waveformBytes [0x3531#64, 0xE409#64, 0xA9F0#64, 0xC53B#64, 0x2915#64, 0x539B#64, 0xE409#64] =
    [0x31#8, 0x35#8, 0x09#8, 0xE4#8, 0xF0#8, 0xA9#8, 0x3B#8, 0xC5#8, 0x15#8, 0x29#8, 0x9B#8, 0x53#8, 0x09#8, 0xE4#8] := by
  decide

theorem test_invalid_vector : buildImage (List.replicate 100 0#8) = .error (.invalidVectorSize 100 230400) := by rfl

/-! Witnesses: for every statement with hypotheses, a concrete case that meets them all -/

theorem test_witness_StepRunsDecodedCommand :
    (decode 0x40000000000F9060#64 = .ok (.osctick 1020000#32) ∧
      (at8000 0 [.command 0x40000000000F9060#64]).inputs = .command 0x40000000000F9060#64 :: []) ∧
    (decode 0#64 = .error .badOpcode ∧ (at8000 0 [.command 0#64, .reset]).inputs = .command 0#64 :: [.reset]) ∧
    (at8000 0 [.reset]).inputs = .reset :: [] ∧ (at8000 0 []).inputs = [] ∧
    decodeTableWord 64 0x3000000000001F40 = some (.oscnew 8000#32) := by decide

theorem test_witness_Inv : (at8000 0 []).Inv ∧ (at8000 4079999 [.command 0#64]).Inv ∧ State.reset.Inv ∧
    (at8000 0 []).valid = true ∧ (at8000 0 []).rate = some 8000#32 ∧
    (at8000 0 []).z = some { num := 0, den := 4080000 } := by decide

/-- `DecodedWordIsTheEncoding`, `FirstFailingCheckDecides`, `OneResponsePerCommand`, `QueueRunsInOrder`: a word of each
kind, in a legal state. -/
theorem test_witness_words :
    (at8000 7 [.command 0x3000000000000000#64]).Inv ∧
    (at8000 7 [.command 0x3000000000000000#64]).inputs = .command 0x3000000000000000#64 :: [] ∧
    decode 0x1000000000FFFFFF#64 = .ok (.csc 255#8 255#8 255#8) ∧
    decode 0x2000FFFFFFFFFFFF#64 = .ok (.ticks 4294967295#32 65535#16) ∧
    decode 0x30000000FFFFFFFF#64 = .ok (.oscnew 4294967295#32) ∧
    decode 0x40000000FFFFFFFF#64 = .ok (.osctick 4294967295#32) ∧
    (checkedStatus 0x4000000000000000#64 State.reset = .uninit ∧ checkedStatus 0x3000000000000000#64 State.reset = .badRate ∧
      checkedStatus 0x4000000100000000#64 State.reset = .illegal ∧ checkedStatus 0x4000000000000000#64 (at8000 0 []) = .ok) := by
  decide

theorem test_witness_RunPrefixIsARun :
    ∃ t, runCommands ([0x3000000000001F40#64] ++ [0x4000000000000000#64]) State.reset = .next t :=
  next_of_answered (by decide +kernel)

theorem test_witness_LegalStateKeptByStep :
    (at8000 0 [.command 0x40000000000F9060#64]).Inv ∧
    ∃ t, step (at8000 0 [.command 0x40000000000F9060#64]) = .next t :=
  ⟨by decide, next_of_answered (by decide +kernel)⟩

theorem test_witness_ResponsesKeepTheirForm :
    State.ResponsesOk { at8000 0 [.command 0#64] with responses := [0x2000000000000000#64, 0xA582#64] } ∧
    ∃ t, step { at8000 0 [.command 0#64] with responses := [0x2000000000000000#64, 0xA582#64] } = .next t :=
  ⟨by decide, next_of_answered (by decide +kernel)⟩

/-- `ResetEventEffect`, and the third clause of `ValidFlagRule`. -/
theorem test_witness_ResetEventEffect :
    (at8000 5 [.reset, .command 0#64]).inputs = .reset :: [.command 0#64] ∧
    ∃ t, step (at8000 5 [.reset, .command 0#64]) = .next t ∧ (at8000 5 [.reset, .command 0#64]).valid = true ∧
      t.valid = false := ⟨rfl, _, rfl, rfl, rfl⟩

/-- `ValidFlagRule`, `RateWrittenOnlyByOscnew`, `CommandFrames`, `OscnewStartsAgain`: each command answers a next state. -/
theorem test_witness_exec_next :
    (∃ t, exec (.csc 1#8 2#8 3#8) State.reset = .next t) ∧ (∃ t, exec (.ticks 0#32 0#16) State.reset = .next t) ∧
    (∃ t, exec (.oscnew 0#32) (at8000 0 []) = .next t) ∧ (∃ t, exec (.osctick 0#32) State.reset = .next t) ∧
    (∃ t, exec (.osctick 1020000#32) (at8000 0 []) = .next t) ∧
    (∀ rate : Rate, rate = 1#32 ∨ rate = 4294967295#32 → rate ≠ 0#32 ∧ ∃ t, exec (.oscnew rate) (at8000 0 []) = .next t) ∧
    (∀ rate, rate ≠ 0#32 → Instr.osctick 0#32 ≠ .oscnew rate) ∧ (∀ rate, rate ≠ 0#32 → Instr.oscnew 0#32 ≠ .oscnew rate) := by
  refine ⟨next_of_answered (by decide +kernel), next_of_answered (by decide +kernel), next_of_answered (by decide +kernel),
    next_of_answered (by decide +kernel), next_of_answered (by decide +kernel), ?_, by simp, ?_⟩
  · rintro rate (rfl | rfl)
    · exact ⟨by decide, next_of_answered (by decide +kernel)⟩
    · exact ⟨by decide, next_of_answered (by decide +kernel)⟩
  · intro rate h e
    injection e with e
    exact h e.symm

theorem test_witness_ErringCommandHasNoEffect :
    ∃ t, perform 0x3000000000000000#64 (at8000 5 []) = .next t ∧ t.responses = [] ++ [0x2000000000000000#64] ∧
      statusField 0x2000000000000000#64 ≠ Status.ok.code := ⟨_, rfl, rfl, by decide⟩

theorem test_witness_AnswerDependsOnBlockAndWord :
    (at8000 5 []).block = State.block { at8000 5 [.reset] with responses := [0#64] } ∧
    ∃ t, perform 0x4000000000000000#64 (at8000 5 []) = .next t := ⟨rfl, next_of_answered (by decide +kernel)⟩

/-- `WhatTheHostMayRelyOn`: a legal rate, and a word of each kind after it. -/
theorem test_witness_WhatTheHostMayRelyOn :
    (4294967295#32 : Rate) ≠ 0#32 ∧ decode (encode (.oscnew 0#32)) = .ok (.oscnew 0#32) ∧
    decode 0x4000000100000000#64 = .error .reservedBits ∧
    (words (runCommands [0x3000000000001F40#64, 0x3000000000000000#64, 0#64, 0x4000000000000000#64] State.reset)).map
      statusField = [0#4, 2#4, 1#4, 0#4] := by decide +kernel

/-- A carrier whose output is the constant `k`. -/
def constantCarrier (k : Int) : Carrier Phase := { start := fun _ => ⟨0, 1⟩, turn := fun _ _ z => z, sample := fun _ => k }

/-- The three clauses of `ModelLevelFaults`, the second at both first values out of range. -/
theorem test_witness_ModelLevelFaults :
    ({ at8000 0 [] with z := none }.valid = true ∧ { at8000 0 [] with z := none }.z = none ∧
      { at8000 0 [] with rate := none }.rate = none) ∧
    (∀ k : Int, k = 32768 ∨ k = -32769 →
      Config.params.wf = true ∧ (at8000 0 []).block.valid = true ∧ (at8000 0 []).block.rate = some 8000#32 ∧
      (at8000 0 []).block.z = some ⟨0, 4080000⟩ ∧
      ¬ (-32768 ≤ (constantCarrier k).sample ((constantCarrier k).turn 8000#32 0#32 ⟨0, 4080000⟩) ∧
        (constantCarrier k).sample ((constantCarrier k).turn 8000#32 0#32 ⟨0, 4080000⟩) ≤ 32767)) ∧
    Config.Params.wf ⟨⟨0, 0, 1⟩, 0, 1⟩ = false ∧ Config.Params.wf ⟨⟨0, 707, 1000⟩, 0, 1⟩ = true := by
  refine ⟨by decide, ?_, by decide, by decide⟩
  rintro k (rfl | rfl)
  · decide
  · decide

/-- `TicksMonotone` and the second clause of `TicksTruncationError`, at the end of the range. -/
theorem test_witness_Ticks :
    (44099#32 : Rate).toNat ≤ (44100#32 : Rate).toNat ∧ (90#16 : DurCode).toNat ≤ (65535#16 : DurCode).toNat ∧
    (32768#16 : DurCode).toNat + (32767#16 : DurCode).toNat < 65536 := by decide

theorem test_witness_OsctickBeforeConstruction : State.reset.valid = false := rfl

/-- `OscnewConstructs`, `ClosedForm`, `SampleIsExact`, `RoundingOfTheSample`. -/
theorem test_witness_phases :
    (1#32 : Rate) ≠ 0#32 ∧ (4294967295#32 : Rate) ≠ 0#32 ∧ (⟨509, 510⟩ : Phase).den = turnCodes 1#32 ∧
    (⟨0, 2190433320450⟩ : Phase).den = turnCodes 4294967295#32 ∧ (⟨509, 510⟩ : Phase).den ≠ 0 := by decide

/-- `MagnitudeInvariant`, `SampleBound`, `PhaseContinuity`, `OsctickRotatesAndAnswers`, `ZeroFrequencyHoldsTheState`. -/
theorem test_witness_tick :
    (at8000 1020000 []).Inv ∧ (at8000 1020000 []).valid = true ∧ (at8000 1020000 []).rate = some 8000#32 ∧
    (at8000 1020000 []).z = some ⟨1020000, 4080000⟩ ∧
    ∃ t, exec (.osctick 1020000#32) (at8000 1020000 []) = .next t ∧ t.z = some ⟨2040000, 4080000⟩ ∧
      t.responses = (at8000 1020000 []).responses ++ [0x000000000000A582#64] :=
  ⟨by decide, rfl, rfl, rfl, _, next_of_eq test_osctick_quarter, rfl, rfl⟩

/-- `ClosedForm` and `SampleBound`, the clauses over every admissible `Z0`: one that is imaginary, and a state of its
magnitude that is not the starting value. -/
theorem test_witness_every_start :
    Config.Params.wf ⟨⟨0, 707, 1000⟩, 0, 1⟩ = true ∧ (8000#32 : Rate) ≠ 0#32 ∧
    (construct 8000#32 ((0.707, 0) : ℝ × ℝ)).valid = true ∧ (construct 8000#32 ((0.707, 0) : ℝ × ℝ)).rate = some 8000#32 ∧
    (construct 8000#32 ((0.707, 0) : ℝ × ℝ)).z = some (0.707, 0) ∧
    magnitude id ((0.707, 0) : ℝ × ℝ) = ‖startValue ⟨0, 707, 1000⟩‖ := by
  refine ⟨by decide, by decide, rfl, rfl, rfl, ?_⟩
  have h1 : magnitude id ((0.707, 0) : ℝ × ℝ) = 0.707 := by
    unfold magnitude
    rw [id, id, zero_pow two_ne_zero, add_zero, Real.sqrt_sq (by norm_num)]
  have h2 : ‖startValue ⟨0, 707, 1000⟩‖ = 0.707 := by
    unfold startValue
    simp
    norm_num
  rw [h1, h2]

/-- `CodesAliasByWholeTurns`: O7, and a code of zero. -/
theorem test_witness_CodesAliasByWholeTurns :
    (at8000 0 []).Inv ∧ (at8000 0 []).rate = some 8000#32 ∧
    (4590000#32 : FreqCode).toNat = (510000#32 : FreqCode).toNat + 1 * (510 * (8000#32 : Rate).toNat) ∧
    (4080000#32 : FreqCode).toNat = 510 * (8000#32 : Rate).toNat := by decide

theorem test_witness_MirroredCodesGiveTheSameSamples :
    List.Forall₂ (fun f g : FreqCode => f.toNat + g.toNat = 510 * (8000#32 : Rate).toNat)
      [510000#32, 0#32] [3570000#32, 4080000#32] ∧
    (∃ t, runCommands (encode (.oscnew 8000#32) :: [510000#32, 0#32].map fun f => encode (.osctick f)) State.reset = .next t) ∧
    ∃ t, runCommands (encode (.oscnew 8000#32) :: [3570000#32, 4080000#32].map fun f => encode (.osctick f)) State.reset =
      .next t :=
  ⟨.cons rfl (.cons rfl .nil), next_of_answered (by decide +kernel), next_of_answered (by decide +kernel)⟩

theorem test_witness_SwappedTicksLeaveTheSameState :
    (∃ t, runCommands [encode (.osctick 612000#32), encode (.osctick 765000#32)] (at8000 0 []) = .next t) ∧
    ∃ t, runCommands [encode (.osctick 765000#32), encode (.osctick 612000#32)] (at8000 0 []) = .next t :=
  ⟨next_of_answered (by decide +kernel), next_of_answered (by decide +kernel)⟩

/-- A number system of integers, in units of `1/32767`, in which nothing turns. -/
def stillSystem : NumberSystem Unit Int :=
  { kOf := fun _ => (), rot := fun _ _ => (1, 0), cmul := fun z _ => z, scaleRound := fun x => x }

theorem stillSystem_after (z0 : Int × Int) (rate : Rate) (fs : List FreqCode) :
    (stillSystem.carrier z0).after rate fs = z0 := by
  unfold Carrier.after
  induction fs with
  | nil => rfl
  | cons f fs ih => exact ih

theorem stillSystem_magnitude (k : Int) :
    magnitude (fun x : Int => (x : ℝ) / 32767) (k, 0) = |(k : ℝ) / 32767| := by
  unfold magnitude
  simp [Real.sqrt_sq_eq_abs]

/-- `ContractKeepsSamplesInRange`: a number system that always answers 23166 under a small `EPS_MAG`, and one that always
answers 32767 under nearly the largest. -/
theorem test_witness_ContractKeepsSamplesInRange :
    (∀ (k : Int) (p : Config.Params), (k = 23166 ∧ p = ⟨Config.defaultStart, 1, 1000⟩) ∨
        (k = 32767 ∧ p = ⟨Config.defaultStart, 2930152, 10000000⟩) →
      p.wf = true ∧ stillSystem.Contract (k, 0) p (fun x : Int => (x : ℝ) / 32767)) ∧
    (8000#32 : Rate) ≠ 0#32 ∧
    ∀ x : Int, |(stillSystem.scaleRound x : ℝ) - 32767 * ((x : ℝ) / 32767)| ≤ 1 / 2 := by
  refine ⟨?_, by decide, fun x => ?_⟩
  · rintro k p (⟨rfl, rfl⟩ | ⟨rfl, rfl⟩)
    · refine ⟨by decide, fun rate fs _ => ?_, fun rate fs _ _ => ?_⟩
      · rw [stillSystem_after, stillSystem_magnitude]
        norm_num [epsMag, abs_le, abs_of_nonneg]
      · rw [stillSystem_after]; decide
    · refine ⟨by decide, fun rate fs _ => ?_, fun rate fs _ _ => ?_⟩
      · rw [stillSystem_after, stillSystem_magnitude]
        norm_num [epsMag, abs_le, abs_of_nonneg]
      · rw [stillSystem_after]; decide
  · have h : (stillSystem.scaleRound x : ℝ) = x := rfl
    rw [h, mul_div_cancel₀ _ (by norm_num : (32767 : ℝ) ≠ 0)]
    norm_num

/-- `AssemblerChecksOperands`: a line whose operand does not fit, and one whose operand does. -/
theorem test_witness_AssemblerChecksOperands :
    parseLine "OSCTICK.HZ 8421505".toList = .ok (some (.osctickHz 8421505)) ∧ expand (.osctickHz 8421505) = none ∧
    parseLine "OSCTICK.HZ 8421504 ; last".toList = .ok (some (.osctickHz 8421504)) ∧
    expand (.osctickHz 8421504) = some (.osctick 4294967040#32) := by decide

theorem test_witness_FrequencyPseudoInstructions :
    510 * 8421504 < 2 ^ 32 ∧ (255 : Nat) ≤ 255 ∧ (510 : Nat) ≤ 510 := by decide

/-- The four clauses of `ImageConstruction`. -/
theorem test_witness_ImageConstruction :
    (List.replicate 230399 (0#8 : Byte)).length ≠ 230400 ∧ (List.replicate 230400 (0#8 : Byte)).length = 230400 ∧
    (76799 : Nat) < 76800 ∧ (319 : Nat) ≠ 320 ∧ (241 : Nat) ≠ 240 := by
  rw [List.length_replicate, List.length_replicate]; decide

/-- A host: one tone of 1900 Hz after the leader, counts rounded up, ticks from 0, ties up, the last column for every chroma
sample, the exact mean. -/
def someHost : HostParams :=
  { headerTable := [{ tone := .hz1900, fraction := 3 / 100 }], headerRoundUp := fun _ _ => true, tickOrigin := 0, tieUp := fun _ => true, chromaColumn := fun _ _ => 319,
    mean := .exact }

/-- R187: at 30 Hz the leader is 9 samples of 0 Hz, and 0.9 of a sample of 1900 Hz (code 969000) is rounded up to one; at
21 Hz the leader is 6.3 samples, 7 when rounded up and 6 otherwise. -/
theorem test_header :
    header someHost 30#32 = List.replicate 9 0#32 ++ [969000#32] ∧ (leader someHost 21#32).length = 7 ∧
    (leader { someHost with headerRoundUp := fun _ _ => false } 21#32).length = 6 := by decide +kernel

/-- A black image of 76800 pixels (R181; L1-1). -/
def blackImage : Image := { pixels := List.replicate 76800 { y := 16#8, u := 128#8, v := 128#8 } }

theorem test_witness_SequencerStaysInBounds :
    blackImage.pixels.length = 76800 ∧ ∀ tick n, someHost.chromaColumn tick n < 320 :=
  ⟨by unfold blackImage; exact List.length_replicate, fun _ _ => (by decide : 319 < 320)⟩

theorem blackImage_pixelAt {x y : Nat} (hx : x < 320) (hy : y < 240) :
    blackImage.pixelAt x y = .ok { y := 16#8, u := 128#8, v := 128#8 } := by
  unfold Image.pixelAt blackImage imageWidth imageHeight
  rw [if_pos ⟨hx, hy⟩]
  simp only [List.getElem?_replicate]
  rw [if_pos (by omega)]

/-- At 23 Hz a luma scan of the black image is two samples. -/
theorem blackImage_luma {y : Nat} (hy : y < 240) :
    ∃ fs, lumaScan someHost blackImage (segmentCounts 23#32) y = .ok fs := by
  have h : (segmentCounts 23#32).yTicks = 2 := by decide
  unfold lumaScan
  simp only [h, collect]
  rw [blackImage_pixelAt (by decide) hy, blackImage_pixelAt (by decide) hy]
  exact ⟨_, rfl⟩

/-- At 23 Hz a chroma scan of the black image is one sample. -/
theorem blackImage_chroma (ch : Pixel → Channel) {y : Nat} (hy : y < 240) :
    ∃ fs, chromaScan someHost blackImage (segmentCounts 23#32) ch y = .ok fs := by
  have h : (segmentCounts 23#32).uvTicks = 1 := by decide
  unfold chromaScan
  simp only [h, collect]
  rw [blackImage_pixelAt (by decide) hy, blackImage_pixelAt (by decide) hy]
  exact ⟨_, rfl⟩

theorem blackImage_half (y sepHz : Nat) (ch : Pixel → Channel) (hy : y < 240) :
    ∃ fs, halfPair someHost blackImage (segmentCounts 23#32) y sepHz ch = .ok fs := by
  obtain ⟨luma, h1⟩ := blackImage_luma hy
  obtain ⟨chroma, h2⟩ := blackImage_chroma ch hy
  unfold halfPair
  rw [h1, h2]
  exact ⟨_, rfl⟩

theorem blackImage_pairs (n : Nat) (hn : n ≤ 120) : ∃ fs, rowPairs someHost blackImage (segmentCounts 23#32) n = .ok fs := by
  induction n with
  | zero => exact ⟨[], rfl⟩
  | succ n ih =>
    obtain ⟨fs, h⟩ := ih (by omega)
    obtain ⟨a, ha⟩ := blackImage_half (2 * n) 1500 Pixel.v (by omega)
    obtain ⟨b, hb⟩ := blackImage_half (2 * n + 1) 2300 Pixel.u (by omega)
    unfold rowPairs rowPair
    rw [h, ha, hb]
    exact ⟨_, rfl⟩

theorem frequencies_of_pairs {hp : HostParams} {img : Image} {counts : SegmentCounts} {rate : Rate} {fs : List FreqCode}
    (h : rowPairs hp img counts 120 = .ok fs) : frequencies hp img counts rate = .ok (header hp rate ++ fs) := by
  unfold frequencies
  rw [show imageHeight / 2 = 120 from rfl, h]

theorem test_witness_EncodeLength : ∃ fs, frequencies someHost blackImage (segmentCounts 23#32) 23#32 = .ok fs := by
  obtain ⟨fs, h⟩ := blackImage_pairs 120 (Nat.le_refl 120)
  exact ⟨_, frequencies_of_pairs h⟩

theorem convertTriples_black (n : Nat) :
    convertTriples (List.replicate (3 * n) 0#8) = List.replicate n { y := 16#8, u := 128#8, v := 128#8 } := by
  induction n with
  | zero => rfl
  | succ n ih =>
    have h : convertTriples (List.replicate (3 * (n + 1)) 0#8) =
        { y := (csc 0#8 0#8 0#8).1, u := (csc 0#8 0#8 0#8).2.1, v := (csc 0#8 0#8 0#8).2.2 } ::
          convertTriples (List.replicate (3 * n) 0#8) := rfl
    rw [h, ih]
    rfl

theorem buildImage_black (rgb : List Byte) (h : rgb.length = 230400)
    (h2 : convertTriples rgb = List.replicate 76800 { y := 16#8, u := 128#8, v := 128#8 }) :
    buildImage rgb = .ok blackImage := by
  unfold buildImage imageWidth imageHeight blackImage
  simp only [h, h2]
  rfl

/-- `SequencerStaysInBounds`, second clause: a black raw buffer, of which the scans of row 239 exist at 23 Hz. -/
theorem test_witness_scans :
    (∃ rgb, buildImage rgb = .ok blackImage) ∧
    (∃ fs, lumaScan someHost blackImage (segmentCounts 23#32) 239 = .ok fs) ∧
    (∃ fs, chromaScan someHost blackImage (segmentCounts 23#32) Pixel.v 239 = .ok fs) ∧
    ∃ fs, chromaScan someHost blackImage (segmentCounts 23#32) Pixel.u 239 = .ok fs :=
  ⟨⟨_, buildImage_black _ List.length_replicate (convertTriples_black 76800)⟩, blackImage_luma (by decide),
    blackImage_chroma _ (by decide), blackImage_chroma _ (by decide)⟩

theorem commandsFrom_of_parts {hp : HostParams} {rgb : List Byte} {img : Image} {rate : Rate} {fs : List FreqCode}
    (h0 : rate ≠ 0#32) (h : frequencies hp img (segmentCounts rate) rate = .ok fs) :
    ∃ cmds, commandsFrom (.ok img) hp rgb rate = .ok cmds := by
  unfold commandsFrom imageCommands
  simp only [h, if_neg h0]
  exact ⟨_, rfl⟩

/-- `WholeEncodeAnswersOk`: one encode of a black raw buffer at 23 Hz, as a buffer and as a decoded image. -/
theorem test_witness_WholeEncodeAnswersOk :
    (23#32 : Rate) ≠ 0#32 ∧ (∃ cmds, encodeCommands someHost (List.replicate 230400 0#8) 23#32 = .ok cmds) ∧
    ∃ cmds, encodeDecodedCommands someHost 320 240 (List.replicate 230400 0#8) 23#32 = .ok cmds := by
  obtain ⟨fs, h⟩ := test_witness_EncodeLength
  have h2 := buildImage_black (List.replicate 230400 0#8) List.length_replicate (convertTriples_black 76800)
  refine ⟨by decide, ?_, ?_⟩
  · unfold encodeCommands
    rw [h2]
    exact commandsFrom_of_parts (by decide) h
  · unfold encodeDecodedCommands buildDecoded imageWidth imageHeight
    rw [if_neg (by decide), if_neg (by decide), h2]
    exact commandsFrom_of_parts (by decide) h

/-- R185: the six counts of an Encoder at 8000 Hz (spec/41_timing_converter.md R128), made in a state that was in use. -/
theorem test_encoder_counts :
    (match Encoder.new { pixels := [] } 8000#32 (at8000 5 []) with
      | .ok (enc, t) => some (enc.counts, enc.consumed, t.z)
      | .error _ => none) =
    some ({ horizontalSyncTicks := 72, syncPorchTicks := 24, porchTicks := 12, separatorTicks := 36, yTicks := 704,
            uvTicks := 352 }, false, some ⟨0, 4080000⟩) := by decide +kernel

/-- R186, R195: the samples of `OSCTICK.HZ 2000` twice at 8000 Hz (spec/42_oscillator.md R143). -/
theorem test_waveform_samples :
    (match Waveform.samples { remaining := [1020000#32, 1020000#32] } (at8000 0 []) with
      | .ok (smps, _) => some smps
      | .error _ => none) = some [0#16, 0xA582#16] := by decide +kernel

end Sys2Proof.Machine.Tests
end

section
/-! PROOFS of the statements about the block's state (spec/10_state.md): the legal states (R21, R26 to R28), who writes
`VALID` and `RATE` (R25, R26), and the step on the oldest input (R20). The invariants turn on `exec_block_cases`, which
says what a command that answers can do to the block. -/

namespace Sys2Proof.Machine

/-! What a command can do to the block, and what it answers -/

/-- Everything a command can do to the block when it answers: nothing, a construction (R140), or a rotation of `Z` (R143). -/
theorem exec_block_cases {i : Instr} {s t : State} (h : exec i s = .next t) :
    t.block = s.block ∨
    (∃ rate, rate ≠ 0#32 ∧ i = .oscnew rate ∧ t.block = construct rate { num := 0, den := turnCodes rate }) ∨
    (∃ f rate z, i = .osctick f ∧ s.valid = true ∧ s.rate = some rate ∧ s.z = some z ∧
      t.block = writeZ (z.rotate (rotor f rate)) s.block) := by
  obtain ⟨r, g, b, rfl, rfl⟩ | ⟨rate, dn, rfl, rfl⟩ | ⟨rfl, rfl⟩ | ⟨rate, h0, rfl, rfl⟩ | ⟨f, rfl, -, rfl⟩ |
    ⟨f, rate, z, smp, rfl, hv, hr, hz, -, rfl⟩ := exec_next_cases h
  · exact .inl rfl
  · exact .inl rfl
  · exact .inl rfl
  · exact .inr (.inl ⟨rate, h0, rfl, rfl⟩)
  · exact .inl rfl
  · exact .inr (.inr ⟨f, rate, z, rfl, hv, hr, hz, rfl⟩)

/-- A delivery that is a next state delivers a reply. -/
theorem deliver_eq_next {s t : State} {r : BlockResult Phase} (h : deliver s r = .next t) :
    ∃ rep, r = .next rep ∧ t = respond rep.status rep.payload (s.withBlock rep.block) := by
  cases r with
  | next rep => exact ⟨rep, rfl, (Host.Outcome.next.inj h).symm⟩
  | fault e => cases h
  | refused e => cases h

/-- A command reads the block alone: from two states with one block it answers the same word and leaves the same block
(R25: there is no condition code). -/
theorem exec_congr_block {i : Instr} {s s' t : State} (hb : s.block = s'.block) (h : exec i s = .next t) :
    ∃ rsp t', exec i s' = .next t' ∧ t.block = t'.block ∧ t.responses = s.responses ++ [rsp] ∧
      t'.responses = s'.responses ++ [rsp] := by
  rw [exec_eq_commandOn] at h
  obtain ⟨rep, hrep, rfl⟩ := deliver_eq_next h
  refine ⟨responseWord rep.status rep.payload, respond rep.status rep.payload (s'.withBlock rep.block), ?_, rfl, rfl, rfl⟩
  rw [exec_eq_commandOn, ← hb, hrep, deliver_next]

/-! Legal states -/

/-- Whether a state is legal is a matter of its block alone. -/
theorem legal_congr_block {s t : State} (hb : t.block = s.block) : t.legal = s.legal := by
  have hv : t.valid = s.valid := congrArg Block.valid hb
  have hr : t.rate = s.rate := congrArg Block.rate hb
  have hz : t.z = s.z := congrArg Block.z hb
  unfold State.legal
  rw [hv, hr, hz]

/-- A rotation over the phase's own denominator adds the code modulo one turn (R159). -/
theorem rotate_rotor (f : FreqCode) {rate : Rate} {z : Phase} (h : z.den = turnCodes rate) :
    z.rotate (rotor f rate) = { num := (z.num + f.toNat) % turnCodes rate, den := turnCodes rate } :=
  phaseCarrier_turn Config.params.z0 f h

theorem exec_keeps_inv {i : Instr} {s t : State} (hs : s.Inv) (h : exec i s = .next t) : t.Inv := by
  obtain hb | ⟨rate, h0, -, hb⟩ | ⟨f, rate, z, -, hv, hr, hz, hb⟩ := exec_block_cases h
  · exact (legal_congr_block hb).trans hs
  · exact legal_of_constructed (congrArg Block.valid hb) (congrArg Block.rate hb) (congrArg Block.z hb) h0 rfl
      (turnCodes_pos h0)
  · obtain ⟨hv', -, -⟩ | ⟨rate', z', -, hr', hz', h0, hden, -⟩ := legal_cases hs
    · cases hv.symm.trans hv'
    · obtain rfl : rate = rate' := Option.some.inj (hr.symm.trans hr')
      obtain rfl : z = z' := Option.some.inj (hz.symm.trans hz')
      rw [rotate_rotor f hden] at hb
      exact legal_of_constructed ((congrArg Block.valid hb).trans hv) ((congrArg Block.rate hb).trans hr)
        (congrArg Block.z hb) h0 rfl (Nat.mod_lt _ (turnCodes_pos h0))

theorem perform_keeps_inv {w : Word} {s t : State} (hs : s.Inv) (h : perform w s = .next t) : t.Inv := by
  obtain ⟨i, -, hi⟩ | ⟨r, -, rfl⟩ := perform_next_cases h
  · exact exec_keeps_inv hs hi
  · exact hs

/-- Settles O11, by the cases of a step: nothing taken, the reset event, a command word. -/
theorem legalStateKeptByStep : Obligations.LegalStateKeptByStep := by
  intro s t hs h
  obtain ⟨-, rfl⟩ | ⟨rest, -, rfl⟩ | ⟨w, rest, -, hw⟩ := step_next_cases h
  · exact hs
  · exact resetEvent_legal _
  · exact perform_keeps_inv (s := { s with inputs := rest }) hs hw

/-- Settles O12: the reset state has `VALID` 0 and holds no value. -/
theorem resetStateIsLegal : Obligations.ResetStateIsLegal := rfl

/-! Who writes `VALID` and `RATE` -/

theorem exec_oscnew_sets_valid {rate : Rate} {s t : State} (h0 : rate ≠ 0#32) (h : exec (.oscnew rate) s = .next t) :
    t.valid = true := by
  rw [exec_oscnew_pos h0] at h
  obtain rfl := Host.Outcome.next.inj h
  rfl

/-- Only an `OSCNEW` that completes without error writes `VALID` or `RATE` (R25, R26). -/
theorem exec_keeps_valid_rate {i : Instr} {s t : State} (hi : ∀ rate, rate ≠ 0#32 → i ≠ .oscnew rate)
    (h : exec i s = .next t) : t.valid = s.valid ∧ t.rate = s.rate := by
  obtain hb | ⟨rate, h0, hnew, -⟩ | ⟨f, rate, z, -, -, -, -, hb⟩ := exec_block_cases h
  · exact ⟨congrArg Block.valid hb, congrArg Block.rate hb⟩
  · exact absurd hnew (hi rate h0)
  · exact ⟨congrArg Block.valid hb, congrArg Block.rate hb⟩

/-- No command clears `VALID` (R25). -/
theorem exec_keeps_valid_set {i : Instr} {s t : State} (hs : s.valid = true) (h : exec i s = .next t) :
    t.valid = true := by
  by_cases hi : ∃ rate, rate ≠ 0#32 ∧ i = .oscnew rate
  · obtain ⟨rate, h0, rfl⟩ := hi
    exact exec_oscnew_sets_valid h0 h
  · exact (exec_keeps_valid_rate (fun rate h0 e => hi ⟨rate, h0, e⟩) h).1.trans hs

theorem perform_keeps_valid_set {w : Word} {s t : State} (hs : s.valid = true) (h : perform w s = .next t) :
    t.valid = true := by
  obtain ⟨i, -, hi⟩ | ⟨r, -, rfl⟩ := perform_next_cases h
  · exact exec_keeps_valid_set hs hi
  · exact hs

/-- Nothing but reset clears `VALID` (R25). -/
theorem step_clears_valid_only_by_reset {s t : State} (h : step s = .next t) (hs : s.valid = true) (ht : t.valid = false) :
    ∃ rest, s.inputs = .reset :: rest := by
  obtain ⟨-, rfl⟩ | ⟨rest, hrest, -⟩ | ⟨w, rest, -, hw⟩ := step_next_cases h
  · cases hs.symm.trans ht
  · exact ⟨rest, hrest⟩
  · have ht' : t.valid = true := perform_keeps_valid_set (s := { s with inputs := rest }) hs hw
    cases ht'.symm.trans ht

/-- Settles O17, clause by clause. -/
theorem validFlagRule : Obligations.ValidFlagRule := by
  refine ⟨fun _ _ _ => exec_oscnew_sets_valid, fun _ _ _ hi h => (exec_keeps_valid_rate hi h).1,
    fun _ _ => step_clears_valid_only_by_reset, rfl, fun f _ => exec_osctick_invalid f, fun i s s' t hb h => ?_⟩
  obtain ⟨rsp, t', h', -, hrsp, hrsp'⟩ := exec_congr_block hb h
  exact ⟨rsp, t', h', hrsp, hrsp'⟩

/-- Settles O18: of the three things a command can do to the block only a construction writes `RATE`. -/
theorem rateWrittenOnlyByOscnew : Obligations.RateWrittenOnlyByOscnew := by
  intro i s t h
  refine ⟨?_, fun hi => (exec_keeps_valid_rate (fun rate _ => hi rate) h).2⟩
  obtain hb | ⟨rate, h0, hi, hb⟩ | ⟨f, rate, z, -, -, -, -, hb⟩ := exec_block_cases h
  · exact .inl (congrArg Block.rate hb)
  · exact .inr ⟨rate, h0, hi, congrArg Block.rate hb⟩
  · exact .inl (congrArg Block.rate hb)

/-! The step on the oldest input -/

/-- A row's word that the table decodes is a command word that decodes. -/
theorem decode_tableWord {nbits w : Nat} {i : Instr} (h : decodeTableWord nbits w = some i) :
    decode (tableWord nbits w) = .ok i := by
  unfold decodeTableWord at h
  split at h
  · split at h
    · next hd => exact hd.trans (congrArg Except.ok (Option.some.inj h))
    · cases h
  · cases h

/-- A word presented as the very next input is the one the step performs, on the state before it was presented. -/
theorem step_withFetchWord (s : State) (nbits w : Nat) : step (s.withFetchWord nbits w) = perform (tableWord nbits w) s :=
  step_command (withFetchWord_inputs s nbits w)

/-- Settles O1, one case of the queue at a time. -/
theorem stepRunsDecodedCommand : Obligations.StepRunsDecodedCommand := by
  refine fun s rest => ⟨fun w i hin hd => ?_, fun w r hin hd => ?_, step_reset, step_idle, fun nbits w i hd => ?_⟩
  · rw [step_command hin, perform_ok hd]
  · rw [step_command hin, perform_error hd]
  · rw [step_withFetchWord, perform_ok (decode_tableWord hd)]

end Sys2Proof.Machine
end

section
/-! PROOFS of the statements about what a command reads and writes (spec/20_memory.md): the queue is taken in order (R48), the
frames of the commands (R42), and the byte order on a transport (R45, R47). -/

namespace Sys2Proof.Machine

/-! What a command does to the boundary, and what it leaves of the block -/

/-- A command that answers takes nothing presented and appends its one response (R42). -/
theorem exec_boundary {i : Instr} {s t : State} (h : exec i s = .next t) :
    t.inputs = s.inputs ∧ ∃ rsp, t.responses = s.responses ++ [rsp] := by
  rw [exec_eq_commandOn] at h
  obtain ⟨rep, -, rfl⟩ := deliver_eq_next h
  exact ⟨rfl, _, rfl⟩

/-- Only a construction and a tick write the block. -/
theorem exec_keeps_block {i : Instr} {s t : State} (hnew : ∀ rate, rate ≠ 0#32 → i ≠ .oscnew rate)
    (htick : ∀ f, i ≠ .osctick f) (h : exec i s = .next t) : t.block = s.block := by
  obtain hb | ⟨rate, h0, hi, -⟩ | ⟨f, rate, z, hi, -⟩ := exec_block_cases h
  · exact hb
  · exact absurd hi (hnew rate h0)
  · exact absurd hi (htick f)

theorem perform_keeps_inputs {w : Word} {s t : State} (h : perform w s = .next t) : t.inputs = s.inputs := by
  obtain ⟨i, -, hi⟩ | ⟨r, -, rfl⟩ := perform_next_cases h
  · exact (exec_boundary hi).1
  · rfl

/-- Settles O20: the boundary is framed for every command, the block by what a command can do to it. -/
theorem commandFrames : Obligations.CommandFrames := by
  intro i s t h
  obtain ⟨hin, hrsp⟩ := exec_boundary h
  refine ⟨hin, hrsp, ?csc, ?ticks, ?osctick, ?oscnew⟩
  case csc => rintro r g b rfl; exact exec_keeps_block (by simp) (by simp) h
  case ticks => rintro rate dn rfl; exact exec_keeps_block (by simp) (by simp) h
  case osctick => rintro f rfl; exact exec_keeps_valid_rate (by simp) h
  case oscnew => rintro rfl; exact exec_keeps_block (fun _ h0 e => h0 (Instr.oscnew.inj e).symm) (by simp) h

/-- Settles O21: decoding reads the word alone, a decoded command the block alone, and a rejected word not even that. -/
theorem answerDependsOnBlockAndWord : Obligations.AnswerDependsOnBlockAndWord := by
  intro w s s' t hb h
  obtain ⟨i, hd, hi⟩ | ⟨r, hd, rfl⟩ := perform_next_cases h
  · obtain ⟨rsp, t', h', hblock, hrsp, hrsp'⟩ := exec_congr_block hb hi
    exact ⟨rsp, t', (perform_ok hd s').trans h', hblock, hrsp, hrsp'⟩
  · exact ⟨_, _, perform_error hd s', hb, rfl, rfl⟩

/-! The queue -/

/-- The word at the head of what is presented is performed on the state that still has the rest presented. -/
theorem step_presented (w : Word) (l : List Input) (s : State) :
    step { s with inputs := .command w :: l } = perform w { s with inputs := l } :=
  step_command (s := { s with inputs := .command w :: l }) rfl

/-- Settles O9, by induction on the words: a step performs the oldest word, and what is presented behind it plays no part. -/
theorem queueRunsInOrder : Obligations.QueueRunsInOrder := by
  intro ws s rest
  induction ws generalizing s with
  | nil => rfl
  | cons w ws ih =>
    have hstep := (step_presented w (ws.map Input.command ++ rest) s).trans (perform_with_inputs w { s with inputs := rest } _)
    rw [runCommands_cons]
    cases hw : perform w { s with inputs := rest } with
    | next t =>
      simp only [hw] at hstep
      obtain rfl : t.inputs = rest := perform_keeps_inputs hw
      refine (run_next core ws.length ?_).trans (ih t)
      exact hstep
    | fault r =>
      simp only [hw] at hstep
      exact run_fault core ws.length hstep
    | refused r =>
      simp only [hw] at hstep
      exact run_refused core ws.length hstep

/-! The byte order on a transport -/

/-- The eight bytes of a word, put together again, are the word (R47). -/
theorem wordOfBytes_bits (w : Word) :
    wordOfBytes (bits w 0 8) (bits w 8 8) (bits w 16 8) (bits w 24 8) (bits w 32 8) (bits w 40 8) (bits w 48 8)
      (bits w 56 8) = w := by
  unfold wordOfBytes
  rw [bits_join w (rfl : 56 = 48 + 8), bits_join w (rfl : 48 = 40 + 8), bits_join w (rfl : 40 = 32 + 8),
    bits_join w (rfl : 32 = 24 + 8), bits_join w (rfl : 24 = 16 + 8), bits_join w (rfl : 16 = 8 + 8),
    bits_join w (rfl : 8 = 0 + 8), bits_all]

/-- The high byte of a sample before its low byte is the sample (R45). -/
theorem sample_high_append_low (smp : Sample) : smp.extractLsb' 8 8 ++ smp.extractLsb' 0 8 = smp :=
  (BitVec.extractLsb'_append_extractLsb'_eq_extractLsb' rfl).trans BitVec.extractLsb'_eq_self

/-- Settles O56: the fields of eight bits are adjacent, and joined they are the word or the sample again. -/
theorem transportIsLittleEndian : Obligations.TransportIsLittleEndian :=
  ⟨fun w => ⟨rfl, _, _, _, _, _, _, _, _, rfl, wordOfBytes_bits w⟩, fun smp => ⟨_, _, rfl, sample_high_append_low smp⟩,
    by decide⟩

end Sys2Proof.Machine
end

section
/-! PROOFS of the statements about the encodings (spec/30_encoding.md): the command word, its decoder and the opcode map (R61 to
R68), the response word and its payloads (R70 to R74), and the assembler (R75 to R78). That every command word is answered
(R70) turns on the range of a sample: `sampleOf_eq_rhaReal` and `abs_outputValue_le`. -/

namespace Sys2Proof

/-! Decoding an encoded command -/

theorem decode_encode (i : Instr) : decode (encode i) = .ok i := by
  cases i with
  | csc r g b =>
    rw [decode_csc (opField_encode_csc r g b) (zero_encode_csc r g b), r_encode_csc, g_encode_csc, b_encode_csc]
  | ticks rate dn =>
    rw [decode_ticks (opField_encode_ticks rate dn) (zero_encode_ticks rate dn), rate_encode_ticks, dn_encode_ticks]
  | oscnew rate => rw [decode_oscnew (opField_encode_oscnew rate) (zero_encode_oscnew rate), rate_encode_oscnew]
  | osctick f => rw [decode_osctick (opField_encode_osctick f) (zero_encode_osctick f), f_encode_osctick]

/-- The bytes of a word that decodes are its command, and the bytes behind them are left (R47). -/
theorem decodeBytes_bytesOfWord {w : Word} {i : Instr} (h : decode w = .ok i) (rest : List Byte) :
    decodeBytes (bytesOfWord w ++ rest) = .ok (i, rest) := by
  unfold bytesOfWord
  simp only [List.cons_append, List.nil_append, decodeBytes, Machine.wordOfBytes_bits, h]

/-- Settles O3: the fields of an encoded command are its operands, and eight bytes are one word. -/
theorem encodedCommandDecodesBack : Obligations.EncodedCommandDecodesBack :=
  fun i rest => ⟨instr_wf i, decode_encode i, decodeBytes_bytesOfWord (decode_encode i) rest⟩

/-! Encoding a decoded word: the fields of a format are adjacent, and joined they are the whole word -/

theorem encode_csc_bits {w : Word} (hop : opField w = 0x1#4) (hz : bits w 24 36 = 0#36) :
    encode (.csc (bits w 16 8) (bits w 8 8) (bits w 0 8)) = w := by
  rw [encode, ← hop, ← hz, opField, bits_join w (rfl : 60 = 24 + 36), bits_join w (rfl : 24 = 16 + 8),
    bits_join w (rfl : 16 = 8 + 8), bits_join w (rfl : 8 = 0 + 8), bits_all]

theorem encode_ticks_bits {w : Word} (hop : opField w = 0x2#4) (hz : bits w 48 12 = 0#12) :
    encode (.ticks (bits w 0 32) (bits w 32 16)) = w := by
  rw [encode, ← hop, ← hz, opField, bits_join w (rfl : 60 = 48 + 12), bits_join w (rfl : 48 = 32 + 16),
    bits_join w (rfl : 32 = 0 + 32), bits_all]

theorem encode_oscnew_bits {w : Word} (hop : opField w = 0x3#4) (hz : bits w 32 28 = 0#28) :
    encode (.oscnew (bits w 0 32)) = w := by
  rw [encode, ← hop, ← hz, opField, bits_join w (rfl : 60 = 32 + 28), bits_join w (rfl : 32 = 0 + 32), bits_all]

theorem encode_osctick_bits {w : Word} (hop : opField w = 0x4#4) (hz : bits w 32 28 = 0#28) :
    encode (.osctick (bits w 0 32)) = w := by
  rw [encode, ← hop, ← hz, opField, bits_join w (rfl : 60 = 32 + 28), bits_join w (rfl : 32 = 0 + 32), bits_all]

/-- Settles O4, by the cases of the decoder: a word that decodes is its opcode, a `zero` field of zeros and its operands. -/
theorem decodedWordIsTheEncoding : Obligations.DecodedWordIsTheEncoding := by
  intro w i hi
  obtain ⟨hop, hz, hd⟩ | ⟨hop, hz, hd⟩ | ⟨hop, hz, hd⟩ | ⟨hop, hz, hd⟩ | ⟨-, hd⟩ | ⟨-, -, -, -, hd⟩ := decode_cases w <;>
    rw [hd] at hi
  · exact Except.ok.inj hi ▸ encode_csc_bits hop hz
  · exact Except.ok.inj hi ▸ encode_ticks_bits hop hz
  · exact Except.ok.inj hi ▸ encode_oscnew_bits hop hz
  · exact Except.ok.inj hi ▸ encode_osctick_bits hop hz
  · cases hi
  · cases hi

/-! The opcode map -/

theorem bitVec_append_inj {m n : Nat} {a a' : BitVec m} {b b' : BitVec n} : a ++ b = a' ++ b' ↔ a = a' ∧ b = b' := by
  refine ⟨fun h => ⟨?_, ?_⟩, fun ⟨ha, hb⟩ => ha ▸ hb ▸ rfl⟩
  · simpa only [BitVec.extractLsb'_append_eq_left] using congrArg (BitVec.extractLsb' n m) h
  · simpa only [BitVec.extractLsb'_append_eq_right] using congrArg (BitVec.extractLsb' 0 n) h

/-- The opcode, the `zero` field under it and the operands, put together, are the word (R61). -/
theorem opField_zero_operands (w : Word) {zl l : Nat} (hl : 4 + zl + l = 64) :
    ((opField w ++ bits w l zl) ++ bits w 0 l).cast hl = w := by
  rw [opField, bits_join w (by omega : 60 = l + zl), bits_join w (by omega : l = 0 + l)]
  exact BitVec.eq_of_toNat_eq (by simpa [bits, hl] using w.isLt)

/-- A row whose mask covers the opcode and a `zero` field under it selects the words with that opcode and a `zero` field of
zeros (R66). -/
theorem selects_iff (w : Word) {zl l : Nat} (hl : 4 + zl + l = 64) {row : Row} (op : BitVec 4)
    (hmask : row.mask = (BitVec.allOnes (4 + zl) ++ 0#l).cast hl) (hpattern : row.pattern = ((op ++ 0#zl) ++ 0#l).cast hl) :
    row.selects w = true ↔ opField w = op ∧ bits w l zl = 0#zl := by
  have hmasked : w &&& row.mask = ((opField w ++ bits w l zl) ++ 0#l).cast hl := by
    conv_lhs => rw [hmask, ← opField_zero_operands w hl]
    simp
  rw [Row.selects, beq_iff_eq, hmasked, hpattern, ← BitVec.toNat_inj, BitVec.toNat_cast, BitVec.toNat_cast, BitVec.toNat_inj,
    BitVec.append_left_inj, bitVec_append_inj]

theorem csc_row_selects (w : Word) :
    Row.selects ⟨"CSC", 0xFFFFFFFFFF000000#64, 0x1000000000000000#64⟩ w = true ↔
      opField w = 0x1#4 ∧ bits w 24 36 = 0#36 :=
  selects_iff w (zl := 36) (l := 24) rfl 0x1#4 (by decide) (by decide)

theorem ticks_row_selects (w : Word) :
    Row.selects ⟨"TICKS", 0xFFFF000000000000#64, 0x2000000000000000#64⟩ w = true ↔
      opField w = 0x2#4 ∧ bits w 48 12 = 0#12 :=
  selects_iff w (zl := 12) (l := 48) rfl 0x2#4 (by decide) (by decide)

theorem oscnew_row_selects (w : Word) :
    Row.selects ⟨"OSCNEW", 0xFFFFFFFF00000000#64, 0x3000000000000000#64⟩ w = true ↔
      opField w = 0x3#4 ∧ bits w 32 28 = 0#28 :=
  selects_iff w (zl := 28) (l := 32) rfl 0x3#4 (by decide) (by decide)

theorem osctick_row_selects (w : Word) :
    Row.selects ⟨"OSCTICK", 0xFFFFFFFF00000000#64, 0x4000000000000000#64⟩ w = true ↔
      opField w = 0x4#4 ∧ bits w 32 28 = 0#28 :=
  selects_iff w (zl := 28) (l := 32) rfl 0x4#4 (by decide) (by decide)

/-- Settles O5, by the cases of the decoder: each fixes the opcode, and with it which rows of the map can be selected. -/
theorem wordSelectsOneRowOrIsIllegal : Obligations.WordSelectsOneRowOrIsIllegal := by
  intro w
  simp only [opcodeMap, List.filter_cons, List.filter_nil, csc_row_selects, ticks_row_selects, oscnew_row_selects,
    osctick_row_selects]
  obtain ⟨hop, hz, hd⟩ | ⟨hop, hz, hd⟩ | ⟨hop, hz, hd⟩ | ⟨hop, hz, hd⟩ | ⟨hz, hd⟩ | ⟨h1, h2, h3, h4, hd⟩ := decode_cases w
  · simp [hop, hz, hd, Instr.mnemonic]
  · simp [hop, hz, hd, Instr.mnemonic]
  · simp [hop, hz, hd, Instr.mnemonic]
  · simp [hop, hz, hd, Instr.mnemonic]
  · obtain ⟨hop, hz⟩ | ⟨hop, hz⟩ | ⟨hop, hz⟩ | ⟨hop, hz⟩ := hz <;> simp [hop, hz, hd]
  · simp [h1, h2, h3, h4, hd]

/-! Illegal words -/

/-- An opcode is none of the four exactly when it is 0 or at least 5. -/
theorem opcode_unassigned_iff (op : BitVec 4) :
    (op ≠ 0x1#4 ∧ op ≠ 0x2#4 ∧ op ≠ 0x3#4 ∧ op ≠ 0x4#4) ↔ op.toNat = 0 ∨ 5 ≤ op.toNat := by
  revert op; decide

/-- The words that are no command: R68 a and b, and c for each format. -/
theorem decode_error_iff (w : Word) :
    (∃ r, decode w = .error r) ↔ (opField w).toNat = 0 ∨ 5 ≤ (opField w).toNat ∨
      (opField w = 1#4 ∧ bits w 24 36 ≠ 0#36) ∨ (opField w = 2#4 ∧ bits w 48 12 ≠ 0#12) ∨
      (opField w = 3#4 ∧ bits w 32 28 ≠ 0#28) ∨ (opField w = 4#4 ∧ bits w 32 28 ≠ 0#28) := by
  rw [← or_assoc, ← opcode_unassigned_iff]
  obtain ⟨hop, hz, hd⟩ | ⟨hop, hz, hd⟩ | ⟨hop, hz, hd⟩ | ⟨hop, hz, hd⟩ | ⟨hz, hd⟩ | ⟨h1, h2, h3, h4, hd⟩ := decode_cases w
  · simp [hop, hz, hd]
  · simp [hop, hz, hd]
  · simp [hop, hz, hd]
  · simp [hop, hz, hd]
  · exact iff_of_true ⟨_, hd⟩ (.inr hz)
  · exact iff_of_true ⟨_, hd⟩ (.inl ⟨h1, h2, h3, h4⟩)

/-- Settles O6: the rejected words by `decode_error_iff`, and a rejected word is performed alike in every state. -/
theorem illegalWordsRefused : Obligations.IllegalWordsRefused :=
  ⟨fun w => ⟨(decode_error_iff w).symm, fun ⟨_, hr⟩ s => Machine.perform_error hr s⟩,
    ⟨.badOpcode, by decide⟩, ⟨.badOpcode, by decide⟩⟩

namespace Machine

/-! Every command word is answered: the sample of a legal state is in range (R150) -/

/-- The refinement decides, so the sample is the rounding of `32767 * Re(Z)` (R143, R151; log entry 8). -/
theorem sampleOf_eq_rhaReal (ph : Phase) (hd : 0 < ph.den) (hsz : ph.den < 2 ^ 41) :
    sampleOf Config.defaultStart ph = rhaReal (outputValue Config.defaultStart ph) := by
  obtain ⟨j, hj, hends, hsample⟩ :=
    refineSample_agrees Config.defaultStart ph 42 64 (sampleEnds_decided ph hd hsz _ (by omega))
  obtain ⟨lo, hi, hlo, hhi, hlov, hvhi, -⟩ := sampleEnds_bracket Config.defaultStart (by decide) j (by omega) ph hd
  have hmono : rhaReal hi ≤ rhaReal lo := (hhi.symm.trans (hends.symm.trans hlo)).le
  rw [sampleOf, hsample, hlo]
  exact le_antisymm (rhaReal_mono hlov) ((rhaReal_mono hvhi).trans hmono)

/-- `32767 * |Re(Z)| <= 32767 * 0.707` (R148). -/
theorem abs_outputValue_le (ph : Phase) : |outputValue Config.defaultStart ph| ≤ 23166269 / 1000 := by
  have hval : outputValue Config.defaultStart ph = 23166269 / 1000 * Real.cos ph.angle := by
    rw [outputValue, phase_re_eq, Complex.exp_ofReal_mul_I_re]
    simp [Config.defaultStart]; ring
  rw [hval, abs_mul, abs_of_pos (by norm_num : (0 : ℝ) < 23166269 / 1000)]
  exact mul_le_of_le_one_right (by norm_num) (Real.abs_cos_le_one _)

/-- A sample is at most 23166 in magnitude, well inside 16 bits (R148, R150). -/
theorem abs_sampleOf_le (ph : Phase) (hd : 0 < ph.den) (hsz : ph.den < 2 ^ 41) :
    |sampleOf Config.defaultStart ph| ≤ 23166 := by
  rw [sampleOf_eq_rhaReal ph hd hsz]
  have hv := abs_le.mp (abs_outputValue_le ph)
  have hr := abs_le.mp (rhaReal_near (outputValue Config.defaultStart ph))
  have hreal : |(rhaReal (outputValue Config.defaultStart ph) : ℝ)| < 23167 := by
    rw [abs_lt]; constructor <;> linarith
  have : |rhaReal (outputValue Config.defaultStart ph)| < 23167 := by exact_mod_cast hreal
  omega

/-- A tick of a constructed oscillator is answered, with its sample. -/
theorem exec_osctick_answers (f : FreqCode) {s : State} {rate : Rate} {z : Phase} (hv : s.valid = true)
    (hr : s.rate = some rate) (hz : s.z = some z) (h0 : rate ≠ 0#32) (hden : z.den = turnCodes rate) :
    exec (.osctick f) s = .next (respond .ok
      (samplePayload (BitVec.ofInt 16 (sampleOf Config.params.z0 (z.rotate (rotor f rate)))))
      (s.withBlock (writeZ (z.rotate (rotor f rate)) s.block))) := by
  have hrange : |sampleOf Config.params.z0 (z.rotate (rotor f rate))| ≤ 23166 := by
    rw [rotate_rotor f hden]
    exact abs_sampleOf_le _ (turnCodes_pos h0) (turnCodes_lt rate)
  rw [abs_le] at hrange
  rw [exec_osctick_valid f hv hr hz, toI16_some (by omega)]

/-- In a legal state every command is answered. -/
theorem exec_answers (i : Instr) {s : State} (hs : s.Inv) : ∃ t, exec i s = .next t := by
  cases i with
  | csc r g b => exact ⟨_, exec_csc r g b s⟩
  | ticks rate dn => exact ⟨_, exec_ticks rate dn s⟩
  | oscnew rate =>
    by_cases h0 : rate = 0#32
    · exact ⟨_, h0 ▸ exec_oscnew_zero s⟩
    · exact ⟨_, exec_oscnew_pos h0 s⟩
  | osctick f =>
    obtain ⟨hv, -⟩ | ⟨rate, z, hv, hr, hz, h0, hden, -⟩ := legal_cases hs
    · exact ⟨_, exec_osctick_invalid f hv⟩
    · exact ⟨_, exec_osctick_answers f hv hr hz h0 hden⟩

/-- In a legal state every command word is answered. -/
theorem perform_answers (w : Word) {s : State} (hs : s.Inv) : ∃ t, perform w s = .next t := by
  cases hd : decode w with
  | ok i => rw [perform_ok hd]; exact exec_answers i hs
  | error r => exact ⟨_, perform_error hd s⟩

/-! The one response -/

/-- What a command answers: a status and a payload, which is 0 when the status is not `OK` (R70). -/
theorem exec_response {i : Instr} {s t : State} (h : exec i s = .next t) :
    ∃ st payload, t.responses = s.responses ++ [responseWord st payload] ∧ (st ≠ .ok → payload = 0#48) := by
  obtain ⟨r, g, b, -, rfl⟩ | ⟨rate, dn, -, rfl⟩ | ⟨-, rfl⟩ | ⟨rate, -, -, rfl⟩ | ⟨f, -, -, rfl⟩ |
    ⟨f, rate, z, smp, -, -, -, -, -, rfl⟩ := exec_next_cases h
  · exact ⟨.ok, _, rfl, fun h => absurd rfl h⟩
  · exact ⟨.ok, _, rfl, fun h => absurd rfl h⟩
  · exact ⟨.badRate, _, rfl, fun _ => rfl⟩
  · exact ⟨.ok, _, rfl, fun h => absurd rfl h⟩
  · exact ⟨.uninit, _, rfl, fun _ => rfl⟩
  · exact ⟨.ok, _, rfl, fun h => absurd rfl h⟩

/-- The same of every command word. -/
theorem perform_response {w : Word} {s t : State} (h : perform w s = .next t) :
    ∃ st payload, t.responses = s.responses ++ [responseWord st payload] ∧ (st ≠ .ok → payload = 0#48) := by
  obtain ⟨i, -, hi⟩ | ⟨r, -, rfl⟩ := perform_next_cases h
  · exact exec_response hi
  · exact ⟨.illegal, _, rfl, fun _ => rfl⟩

/-- Settles O8: a word is answered in a legal state, with one response whose fields read back. -/
theorem oneResponsePerCommand : Obligations.OneResponsePerCommand := by
  intro s w rest hs hin
  obtain ⟨t, ht⟩ := perform_answers w (s := { s with inputs := rest }) hs
  obtain ⟨st, payload, hrsp, herr⟩ := perform_response ht
  exact ⟨t, responseWord st payload, st, payload, (step_command hin).trans ht, perform_keeps_inputs ht, hrsp,
    statusField_responseWord st payload, zeroField_responseWord st payload, payloadField_responseWord st payload, herr⟩

/-- A response built from a status and a payload has the form of R70 and R71. -/
theorem responseOk_responseWord {st : Status} {payload : Payload} (h : st ≠ .ok → payload = 0#48) :
    responseOk (responseWord st payload) = true := by
  unfold responseOk
  rw [statusField_responseWord, zeroField_responseWord, payloadField_responseWord]
  cases st with
  | ok => rfl
  | illegal | badRate | uninit => rw [h (by decide)]; rfl

/-- Settles O14, by the cases of a step: only a command word adds a response, and it is built from a status and a payload. -/
theorem responsesKeepTheirForm : Obligations.ResponsesKeepTheirForm := by
  intro s t hs h
  obtain ⟨-, rfl⟩ | ⟨rest, -, rfl⟩ | ⟨w, rest, -, hw⟩ := step_next_cases h
  · exact hs
  · exact hs
  · obtain ⟨st, payload, hrsp, herr⟩ := perform_response hw
    rw [State.ResponsesOk, hrsp, List.all_append, Bool.and_eq_true]
    exact ⟨hs, by simpa using responseOk_responseWord herr⟩

/-! The payloads -/

/-- The fields of a `CSC` payload (R72). -/
theorem colourPayload_fields (y u v : Channel) :
    (colourPayload y u v).extractLsb' 24 24 = 0#24 ∧ (colourPayload y u v).extractLsb' 16 8 = y ∧
    (colourPayload y u v).extractLsb' 8 8 = u ∧ (colourPayload y u v).extractLsb' 0 8 = v := by
  unfold colourPayload
  refine ⟨?_, ?_, ?_, BitVec.extractLsb'_append_eq_right⟩
  · rw [BitVec.extractLsb'_append_eq_of_le (by decide), BitVec.extractLsb'_append_eq_of_le (by decide)]
    exact BitVec.extractLsb'_append_eq_left
  · rw [BitVec.extractLsb'_append_eq_of_le (by decide), BitVec.extractLsb'_append_eq_of_le (by decide)]
    exact BitVec.extractLsb'_append_eq_right
  · rw [BitVec.extractLsb'_append_eq_of_le (by decide)]
    exact BitVec.extractLsb'_append_eq_right

/-- A tick count fits its payload field (R73). -/
theorem tickCount_lt (rate : Rate) (dn : DurCode) : tickCount rate dn < 2 ^ 48 := by
  have hprod : rate.toNat * dn.toNat ≤ 2 ^ 32 * 2 ^ 16 := Nat.mul_le_mul rate.isLt.le dn.isLt.le
  rw [tickCount, durDen]
  omega

/-- Settles O30, payload by payload; the count reads back because it is below `2^48`. -/
theorem payloadLayouts : Obligations.PayloadLayouts := by
  refine ⟨fun y u v => ?csc, fun rate dn => ?ticks, fun smp => ?osctick⟩
  case csc =>
    obtain ⟨hzero, hy, hu, hv⟩ := colourPayload_fields y u v
    exact ⟨statusField_responseWord .ok _, (bits_responseWord .ok _ 24 24 (by decide)).trans hzero,
      (bits_responseWord .ok _ 16 8 (by decide)).trans hy, (bits_responseWord .ok _ 8 8 (by decide)).trans hu,
      (bits_responseWord .ok _ 0 8 (by decide)).trans hv⟩
  case ticks =>
    rw [payloadField_responseWord, countPayload, BitVec.toNat_ofNat, Nat.mod_eq_of_lt (tickCount_lt rate dn)]
  case osctick =>
    exact ⟨statusField_responseWord .ok _,
      (bits_responseWord .ok _ 16 32 (by decide)).trans BitVec.extractLsb'_append_eq_left,
      (bits_responseWord .ok _ 0 16 (by decide)).trans BitVec.extractLsb'_append_eq_right⟩

/-! The expansion of a statement -/

/-- A statement expands exactly when it is well formed (R75). -/
theorem expand_eq_none_iff (src : Source) : expand src = none ↔ src.wf = false := by
  unfold expand
  cases hw : src.wf with
  | false => simp
  | true => cases src <;> simp

/-- The statement of a command expands to it (R75). -/
theorem expand_source (i : Instr) : expand i.source = some i := by
  have hw : i.source.wf = true := instr_wf i
  unfold expand
  rw [if_pos hw]
  cases i <;> simp [Instr.source]

/-- The pseudo-instruction of a segment is `TICKS` with the segment's code (R76). -/
theorem expand_segment (seg : Segment) (rate : Rate) :
    expand (.segment seg rate.toNat) = some (.ticks rate (segmentCode seg)) := by
  have hw : (Source.segment seg rate.toNat).wf = true := decide_eq_true rate.isLt
  rw [expand, if_pos hw, BitVec.ofNat_toNat, BitVec.setWidth_eq]

theorem expand_osctickHz {h : Nat} (hh : 510 * h < 2 ^ 32) :
    expand (.osctickHz h) = some (.osctick (BitVec.ofNat 32 (510 * h))) :=
  if_pos (decide_eq_true hh)

theorem expand_osctickLuma {n : Nat} (hn : n ≤ 255) :
    expand (.osctickLuma n) = some (.osctick (BitVec.ofNat 32 (765000 + 1600 * n))) :=
  if_pos (decide_eq_true hn)

theorem expand_osctickAvg {n : Nat} (hn : n ≤ 510) :
    expand (.osctickAvg n) = some (.osctick (BitVec.ofNat 32 (765000 + 800 * n))) :=
  if_pos (decide_eq_true hn)

/-- A number that fits a frequency code is the code of that many 510ths of a hertz (R65). -/
theorem frequencyCode_ofNat {n : Nat} (hn : n < 2 ^ 32) :
    (BitVec.ofNat 32 n).toNat = n ∧ frequencyHz (BitVec.ofNat 32 n) = n / 510 := by
  have htoNat : (BitVec.ofNat 32 n).toNat = n := by rw [BitVec.toNat_ofNat, Nat.mod_eq_of_lt hn]
  exact ⟨htoNat, by rw [frequencyHz, htoNat]; rfl⟩

/-- Settles O54: each pseudo-instruction in its range is an `OSCTICK` whose code fits, and the code over 510 is the frequency. -/
theorem frequencyPseudoInstructions : Obligations.FrequencyPseudoInstructions := by
  refine ⟨fun h hh => ?hz, fun n hn => ?luma, fun n hn => ?avg⟩
  case hz =>
    obtain ⟨htoNat, hfreq⟩ := frequencyCode_ofNat hh
    exact ⟨_, expand_osctickHz hh, htoNat, by rw [hfreq]; push_cast; ring⟩
  case luma =>
    obtain ⟨htoNat, hfreq⟩ := frequencyCode_ofNat (n := 765000 + 1600 * n) (by omega)
    exact ⟨_, expand_osctickLuma hn, htoNat, by rw [hfreq]; push_cast; ring⟩
  case avg =>
    obtain ⟨htoNat, hfreq⟩ := frequencyCode_ofNat (n := 765000 + 800 * n) (by omega)
    exact ⟨_, expand_osctickAvg hn, htoNat, by rw [hfreq]; push_cast; ring⟩

/-- Settles O2: the assembler, the encoder and the decoder evaluated on each example; rate 0 is answered by
`exec_oscnew_zero`. -/
theorem writtenOutWordsDecode : Obligations.WrittenOutWordsDecode :=
  ⟨by decide, fun s => (perform_ok (by decide) s).trans (exec_oscnew_zero s)⟩

/-- Settles O36: the codes over 10000 are the durations, and the expansions are `expand_segment` segment by segment. -/
theorem segmentDurations : Obligations.SegmentDurations := by
  refine ⟨?_, ?_, ?_, ?_, ?_, ?_, fun rate => ⟨expand_segment .hsync rate, expand_segment .sporch rate,
    expand_segment .porch rate, expand_segment .sep rate, expand_segment .yscan rate, expand_segment .uvscan rate⟩⟩
  all_goals norm_num [durationSeconds, segmentCode, durDen]

/-! The assembler's check of the operands -/

theorem assembleLine_of_expand_none {line : List Char} {src : Source} (hp : parseLine line = .ok (some src))
    (he : expand src = none) : assembleLine line = .error .operandRange := by
  unfold assembleLine; simp only [hp, he]

theorem assembleLine_of_expand_some {line : List Char} {src : Source} {i : Instr} (hp : parseLine line = .ok (some src))
    (he : expand src = some i) : assembleLine line = .ok (some (encode i)) := by
  unfold assembleLine; simp only [hp, he]

/-- Settles O55: a statement fails to expand exactly when it is not well formed, which is read off its operands. -/
theorem assemblerChecksOperands : Obligations.AssemblerChecksOperands := by
  refine ⟨expand_source, fun r g b => ?_, fun rate dn => ?_, fun rate => ?_, fun f => ?_, fun seg rate => ?_, fun h => ?_,
    fun n => ?_, fun n => ?_, fun line src hp => ⟨assembleLine_of_expand_none hp, fun i => assembleLine_of_expand_some hp⟩,
    by decide, by decide⟩
  all_goals simp only [expand_eq_none_iff, Source.wf, Bool.and_eq_false_iff, decide_eq_false_iff_not]
  all_goals omega

end Machine

end Sys2Proof
end

section
/-! PROOFS of the statements about the colour transform (spec/40_color_transform.md). They turn on one fact: before it is rounded
a result lies inside 0 to 255 (`csc_y`, `csc_u`, `csc_v`), so that `clamp` acts only as `floor` (R104, R107). -/

namespace Sys2Proof.Machine

/-! The exact value of a result, and its rounding -/

/-- The exact value that R100 rounds, over the unit `10^9` (R103). -/
def colourNumerator (base : ℤ) (k : ℤ × ℤ × ℤ) (r g b : Channel) : ℤ := base * 10 ^ 9 + 3906 * weighted k r g b

/-- The exact value that R100 rounds, `base + 0.003906 * S` (R100, R101). -/
def colourValue (base : ℤ) (k : ℤ × ℤ × ℤ) (r g b : Channel) : ℚ :=
  base + 0.003906 * (k.1 / 1000 * r.toNat + k.2.1 / 1000 * g.toNat + k.2.2 / 1000 * b.toNat)

theorem yNumerator_eq (r g b : Channel) : colourNumerator yOffset yCoeff r g b =
    16 * 10 ^ 9 + 3906 * (65738 * (r.toNat : ℤ) + 129057 * g.toNat + 25064 * b.toNat) := rfl

theorem uNumerator_eq (r g b : Channel) : colourNumerator chromaOffset uCoeff r g b =
    128 * 10 ^ 9 + 3906 * (-37945 * (r.toNat : ℤ) - 74494 * g.toNat + 112439 * b.toNat) := by
  simp only [colourNumerator, weighted, channelValue, chromaOffset, uCoeff]; ring

theorem vNumerator_eq (r g b : Channel) : colourNumerator chromaOffset vCoeff r g b =
    128 * 10 ^ 9 + 3906 * (112439 * (r.toNat : ℤ) - 94154 * g.toNat - 18285 * b.toNat) := by
  simp only [colourNumerator, weighted, channelValue, chromaOffset, vCoeff]; ring

theorem colourValue_eq_div (base : ℤ) (k : ℤ × ℤ × ℤ) (r g b : Channel) :
    colourValue base k r g b = (colourNumerator base k r g b : ℚ) / (10 ^ 9 : ℕ) := by
  simp only [colourValue, colourNumerator, weighted, channelValue]
  push_cast
  ring

/-! The three formulas of R100, with the literals of R101. -/

theorem yFormula_eq (r g b : Channel) :
    (16 + 0.003906 * (65.738 * r.toNat + 129.057 * g.toNat + 25.064 * b.toNat) : ℚ) = colourValue yOffset yCoeff r g b := by
  norm_num [colourValue, yOffset, yCoeff]

theorem uFormula_eq (r g b : Channel) :
    (128 + 0.003906 * (-37.945 * r.toNat - 74.494 * g.toNat + 112.439 * b.toNat) : ℚ) =
      colourValue chromaOffset uCoeff r g b := by
  norm_num [colourValue, chromaOffset, uCoeff]; ring

theorem vFormula_eq (r g b : Channel) :
    (128 + 0.003906 * (112.439 * r.toNat - 94.154 * g.toNat - 18.285 * b.toNat) : ℚ) =
      colourValue chromaOffset vCoeff r g b := by
  norm_num [colourValue, chromaOffset, vCoeff]; ring

/-- What `clamp` truncates is never negative, so it rounds down (R9). -/
theorem clampRat_eq_floor (x : ℚ) : clampRat x = ⌊min 255 (max 0 x)⌋ :=
  if_pos (le_min (by norm_num) (le_max_left 0 x))

theorem clamp_eq_ediv (n : ℤ) (d : ℕ) : clamp n d = min (255 * (d : ℤ)) (max 0 n) / d :=
  Int.tdiv_eq_ediv_of_nonneg (le_min (by positivity) (le_max_left 0 n))

/-- The integer `clamp` of a quotient is the rational one (R9). -/
theorem clampRat_div (n : ℤ) {d : ℕ} (hd : 0 < d) : clampRat (n / d) = clamp n d := by
  have hd' : (0 : ℚ) < d := by exact_mod_cast hd
  have hmin : min 255 (max 0 ((n : ℚ) / d)) = ((min (255 * d) (max 0 n) : ℤ) : ℚ) / d := by
    push_cast
    rw [← min_div_div_right hd'.le, ← max_div_div_right hd'.le, zero_div, mul_div_cancel_right₀ _ hd'.ne']
  rw [clampRat_eq_floor, clamp_eq_ediv, hmin, Rat.floor_intCast_div_natCast]

theorem clamp_eq_ediv_of_mem {n : ℤ} {d : ℕ} (h0 : 0 ≤ n) (h255 : n ≤ 255 * (d : ℤ)) : clamp n d = n / d := by
  rw [clamp_eq_ediv, max_eq_right h0, min_eq_right h255]

theorem fin_eq_clamp (base : ℤ) (k : ℤ × ℤ × ℤ) (r g b : Channel) :
    fin base (weighted k r g b) = clamp (colourNumerator base k r g b) (10 ^ 9 : ℕ) := rfl

/-- `fin` is `clamp` of the exact value (R100, R102). -/
theorem clampRat_colourValue (base : ℤ) (k : ℤ × ℤ × ℤ) (r g b : Channel) :
    clampRat (colourValue base k r g b) = fin base (weighted k r g b) := by
  rw [colourValue_eq_div, clampRat_div _ (by norm_num), fin_eq_clamp]

/-- A channel that is the quotient of the numerator is the exact value rounded down (R107). -/
theorem channel_floor {c : Channel} {base : ℤ} {k : ℤ × ℤ × ℤ} {r g b : Channel}
    (h : (c.toNat : ℤ) = colourNumerator base k r g b / 10 ^ 9) :
    (c.toNat : ℚ) ≤ colourValue base k r g b ∧ colourValue base k r g b < c.toNat + 1 := by
  have hfloor : ⌊colourValue base k r g b⌋ = (c.toNat : ℤ) := by
    rw [colourValue_eq_div, Rat.floor_intCast_div_natCast, h]
    rfl
  exact_mod_cast Int.floor_eq_iff.mp hfloor

/-! The range of the results -/

/-- A result whose exact value lies from `lo` up to below `hi + 1` is that value rounded down, and lies from `lo` to `hi`. -/
theorem channel_fin {base : ℤ} {k : ℤ × ℤ × ℤ} {r g b : Channel} {lo hi : ℕ} (hhi : hi < 255)
    (h1 : lo * 10 ^ 9 ≤ colourNumerator base k r g b) (h2 : colourNumerator base k r g b < (hi + 1) * 10 ^ 9) :
    (lo ≤ (BitVec.ofInt 8 (fin base (weighted k r g b))).toNat ∧
      (BitVec.ofInt 8 (fin base (weighted k r g b))).toNat ≤ hi) ∧
    ((BitVec.ofInt 8 (fin base (weighted k r g b))).toNat : ℤ) = colourNumerator base k r g b / 10 ^ 9 := by
  rw [BitVec.toNat_ofInt, fin_eq_clamp, clamp_eq_ediv_of_mem (by omega) (by omega)]
  omega

theorem csc_y (r g b : Channel) :
    (16 ≤ (csc r g b).1.toNat ∧ (csc r g b).1.toNat ≤ 234) ∧
    ((csc r g b).1.toNat : ℤ) = colourNumerator yOffset yCoeff r g b / 10 ^ 9 := by
  have := r.isLt; have := g.isLt; have := b.isLt
  exact channel_fin (by decide) (by rw [yNumerator_eq]; omega) (by rw [yNumerator_eq]; omega)

theorem csc_u (r g b : Channel) :
    (16 ≤ (csc r g b).2.1.toNat ∧ (csc r g b).2.1.toNat ≤ 239) ∧
    ((csc r g b).2.1.toNat : ℤ) = colourNumerator chromaOffset uCoeff r g b / 10 ^ 9 := by
  have := r.isLt; have := g.isLt; have := b.isLt
  exact channel_fin (by decide) (by rw [uNumerator_eq]; omega) (by rw [uNumerator_eq]; omega)

theorem csc_v (r g b : Channel) :
    (16 ≤ (csc r g b).2.2.toNat ∧ (csc r g b).2.2.toNat ≤ 239) ∧
    ((csc r g b).2.2.toNat : ℤ) = colourNumerator chromaOffset vCoeff r g b / 10 ^ 9 := by
  have := r.isLt; have := g.isLt; have := b.isLt
  exact channel_fin (by decide) (by rw [vNumerator_eq]; omega) (by rw [vNumerator_eq]; omega)

/-- Settles O26: each exact value is bounded over all inputs, so `clamp` is a quotient; the extremes are evaluated. -/
theorem cscRangeLaw : Obligations.CscRangeLaw := by
  refine ⟨fun r g b => ?_, by decide⟩
  obtain ⟨hyRange, hy⟩ := csc_y r g b
  obtain ⟨huRange, hu⟩ := csc_u r g b
  obtain ⟨hvRange, hv⟩ := csc_v r g b
  rw [yNumerator_eq] at hy
  rw [uNumerator_eq] at hu
  rw [vNumerator_eq] at hv
  exact ⟨hyRange, huRange, hvRange, hy, hu, hv⟩

/-- Settles O28: the quotient by `10^9` is the floor of the exact value. -/
theorem cscRoundsDown : Obligations.CscRoundsDown := by
  refine ⟨fun r g b => ?_, ?_, ?_, by decide, by decide⟩
  · simp only [yFormula_eq, uFormula_eq, vFormula_eq]
    exact ⟨channel_floor (csc_y r g b).2, channel_floor (csc_u r g b).2, channel_floor (csc_v r g b).2⟩
  all_goals rw [clampRat_eq_floor]; norm_num

/-! The command and its word -/

theorem opField_formatC (op : BitVec 4) (zero : BitVec 36) (r g b : Channel) :
    opField (op ++ zero ++ r ++ g ++ b) = op := by
  unfold opField bits
  rw [BitVec.extractLsb'_append_eq_of_le (v := 56) (w := 8) (by decide),
    BitVec.extractLsb'_append_eq_of_le (v := 48) (w := 8) (by decide),
    BitVec.extractLsb'_append_eq_of_le (v := 40) (w := 8) (by decide)]
  exact BitVec.extractLsb'_append_eq_left

theorem zeroField_formatC (op : BitVec 4) (zero : BitVec 36) (r g b : Channel) :
    bits (op ++ zero ++ r ++ g ++ b) 24 36 = zero := by
  unfold bits
  rw [BitVec.extractLsb'_append_eq_of_le (v := 56) (w := 8) (by decide),
    BitVec.extractLsb'_append_eq_of_le (v := 48) (w := 8) (by decide),
    BitVec.extractLsb'_append_eq_of_le (v := 40) (w := 8) (by decide)]
  exact BitVec.extractLsb'_append_eq_right

/-- A word of format C with a nonzero `zero` field is no command (R68 c). -/
theorem perform_csc_reserved {zero : BitVec 36} (h : zero ≠ 0#36) (r g b : Channel) (s : State) :
    perform (0x1#4 ++ zero ++ r ++ g ++ b) s = .next (respond .illegal 0#48 s) := by
  have hreserved : opField (0x1#4 ++ zero ++ r ++ g ++ b) = 1#4 ∧ bits (0x1#4 ++ zero ++ r ++ g ++ b) 24 36 ≠ 0#36 :=
    ⟨opField_formatC _ zero r g b, by rwa [zeroField_formatC]⟩
  obtain ⟨_, hd⟩ := (decode_error_iff _).mpr (.inr (.inr (.inl hreserved)))
  exact perform_error hd s

/-- `CSC` with known results: one response word more. -/
theorem exec_csc_of_eq {r g b y u v : Channel} (h : csc r g b = (y, u, v)) (s : State) :
    exec (.csc r g b) s = .next (respond .ok (colourPayload y u v) s) := by
  rw [exec_csc, h]

/-- Black (R106). -/
theorem csc_black : csc 0#8 0#8 0#8 = (16#8, 128#8, 128#8) := by decide

/-- Settles O25: `fin` is the rational `clamp` of each formula, and the word of format C is the encoded command. -/
theorem cscAnswersTheFormula : Obligations.CscAnswersTheFormula := by
  intro r g b s
  refine ⟨?_, perform_ok (decode_encode (.csc r g b)) s, fun zero hz => perform_csc_reserved hz r g b s, ?_⟩
  · simp only [yFormula_eq, uFormula_eq, vFormula_eq, clampRat_colourValue]
    exact exec_csc r g b s
  · exact (perform_ok (i := .csc 0#8 0#8 0#8) (by decide) s).trans (exec_csc_of_eq csc_black s)

/-- Settles O27: the chroma coefficients of each sum add up to 0, and y is the quotient of `csc_y`. -/
theorem cscGreyLaw : Obligations.CscGreyLaw := by
  intro k
  have hv : weighted vCoeff k k k = 0 := by simp only [weighted, vCoeff]; ring
  have hu : weighted uCoeff k k k = 0 := by simp only [weighted, uCoeff]; ring
  have hy := (csc_y k k k).2
  rw [yNumerator_eq] at hy
  refine ⟨hv, hu, ?_, ?_, by omega⟩
  · simp only [csc, cscU, hu]; decide
  · simp only [csc, cscV, hv]; decide

/-- Settles O29: the three pixels evaluated; two of them have one result. -/
theorem cscBlackAndWhite : Obligations.CscBlackAndWhite := by
  have hwhite : csc 255#8 255#8 255#8 = (234#8, 128#8, 128#8) := by decide
  have hnearWhite : csc 254#8 254#8 254#8 = (234#8, 128#8, 128#8) := by decide
  exact fun s => ⟨exec_csc_of_eq csc_black s, exec_csc_of_eq hwhite s,
    (exec_csc_of_eq hnearWhite s).trans (exec_csc_of_eq hwhite s).symm⟩

end Sys2Proof.Machine
end

section
/-! PROOFS of the statements about the timing converter (spec/41_timing_converter.md). They turn on two facts: the count is the
floor of the exact product (`floor_product_eq_tickCount`), and it grows with both operands (`tickCount_mono`). -/

namespace Sys2Proof.Machine

/-! The count -/

/-- The exact product over 10000, rounded down, is the count (R120, R121). -/
theorem floor_product_eq_tickCount (rate : Rate) (dn : DurCode) :
    ⌊(rate.toNat : ℚ) * dn.toNat / 10000⌋ = (tickCount rate dn : ℤ) := by
  exact_mod_cast Rat.floor_natCast_div_natCast (rate.toNat * dn.toNat) 10000

theorem tickCount_mono {rate rate' : Rate} {dn dn' : DurCode} (hrate : rate.toNat ≤ rate'.toNat) (hdn : dn.toNat ≤ dn'.toNat) :
    tickCount rate dn ≤ tickCount rate' dn' :=
  Nat.div_le_div_right (Nat.mul_le_mul hrate hdn)

theorem tickCount_zero_rate (dn : DurCode) : tickCount 0#32 dn = 0 := by simp [tickCount]

theorem tickCount_zero_duration (rate : Rate) : tickCount rate 0#16 = 0 := by simp [tickCount]

/-- The count of the largest operands (R122). -/
theorem tickCount_largest : tickCount 4294967295#32 65535#16 = 28147068167 := by decide

/-- Two durations whose sum is encodable have together at most the count of the sum (R127). -/
theorem tickCount_add_le (rate : Rate) {a b : DurCode} (h : a.toNat + b.toNat < 65536) :
    tickCount rate a + tickCount rate b ≤ tickCount rate (a + b) := by
  have hsum : (a + b).toNat = a.toNat + b.toNat := BitVec.toNat_add_of_lt h
  rw [tickCount, tickCount, tickCount, hsum, Nat.mul_add]
  exact Nat.div_add_div_le_add_div

/-- Settles O32: the count is largest at the largest operands. -/
theorem ticksResultWidth : Obligations.TicksResultWidth := by
  refine ⟨fun rate dn => ?_, by decide, by decide, tickCount_largest⟩
  rw [← tickCount_largest]
  exact tickCount_mono (Nat.le_of_lt_succ rate.isLt) (Nat.le_of_lt_succ dn.isLt)

/-- Settles O33: the product is monotone in each factor, and so is the quotient. -/
theorem ticksMonotone : Obligations.TicksMonotone :=
  ⟨fun _ _ _ h => tickCount_mono h le_rfl, fun _ _ _ h => tickCount_mono le_rfl h⟩

/-- Settles O34: the count is a floor; two halves of 10000 at 1 Hz lose a whole period. -/
theorem ticksTruncationError : Obligations.TicksTruncationError := by
  refine ⟨fun rate dn => ?_, fun rate a b h => tickCount_add_le rate h, ⟨1#32, 5000#16, 5000#16, by decide⟩, by decide⟩
  have hle := Int.floor_le ((rate.toNat : ℚ) * dn.toNat / 10000)
  have hlt := Int.lt_floor_add_one ((rate.toNat : ℚ) * dn.toNat / 10000)
  rw [floor_product_eq_tickCount, Int.cast_natCast] at hle hlt
  exact ⟨sub_nonneg_of_le hle, sub_lt_iff_lt_add'.mpr hlt⟩

/-- Settles O37: the seventy counts evaluated. -/
theorem tableOfCounts : Obligations.TableOfCounts := by
  unfold Obligations.TableOfCounts
  decide

/-! The command and its word -/

theorem opField_formatT (op : BitVec 4) (zero : BitVec 12) (dn : DurCode) (rate : Rate) :
    opField (op ++ zero ++ dn ++ rate) = op := by
  unfold opField bits
  rw [BitVec.extractLsb'_append_eq_of_le (v := 32) (w := 32) (by decide),
    BitVec.extractLsb'_append_eq_of_le (v := 16) (w := 16) (by decide)]
  exact BitVec.extractLsb'_append_eq_left

theorem zeroField_formatT (op : BitVec 4) (zero : BitVec 12) (dn : DurCode) (rate : Rate) :
    bits (op ++ zero ++ dn ++ rate) 48 12 = zero := by
  unfold bits
  rw [BitVec.extractLsb'_append_eq_of_le (v := 32) (w := 32) (by decide),
    BitVec.extractLsb'_append_eq_of_le (v := 16) (w := 16) (by decide)]
  exact BitVec.extractLsb'_append_eq_right

/-- A word of format T with a nonzero `zero` field is no command (R68 c). -/
theorem perform_ticks_reserved {zero : BitVec 12} (h : zero ≠ 0#12) (rate : Rate) (dn : DurCode) (s : State) :
    perform (0x2#4 ++ zero ++ dn ++ rate) s = .next (respond .illegal 0#48 s) := by
  have hreserved : opField (0x2#4 ++ zero ++ dn ++ rate) = 2#4 ∧ bits (0x2#4 ++ zero ++ dn ++ rate) 48 12 ≠ 0#12 :=
    ⟨opField_formatT _ zero dn rate, by rwa [zeroField_formatT]⟩
  obtain ⟨_, hd⟩ := (decode_error_iff _).mpr (.inr (.inr (.inr (.inl hreserved))))
  exact perform_error hd s

/-- `TICKS` with a known count: one response word more. -/
theorem exec_ticks_of_eq {rate : Rate} {dn : DurCode} {n : Nat} (h : tickCount rate dn = n) (s : State) :
    exec (.ticks rate dn) s = .next (respond .ok (countPayload n) s) := by
  rw [exec_ticks, h]

/-- Settles O31: the floor is the count, and the word of format T is the encoded command. -/
theorem ticksAnswersTheFloor : Obligations.TicksAnswersTheFloor := by
  intro rate dn s
  refine ⟨?_, floor_product_eq_tickCount rate dn, perform_ok (decode_encode (.ticks rate dn)) s,
    fun zero hz => perform_ticks_reserved hz rate dn s, ?_⟩
  · rw [floor_product_eq_tickCount, BitVec.ofInt_natCast]
    exact exec_ticks rate dn s
  · have hcount : tickCount 48000#32 90#16 = 432 := by decide
    exact (perform_ok (i := .ticks 48000#32 90#16) (by decide) s).trans (exec_ticks_of_eq hcount s)

/-- Settles O35: a product with 0 counts 0, and the small products are evaluated. -/
theorem ticksOfZero : Obligations.TicksOfZero := fun s =>
  ⟨fun dn => exec_ticks_of_eq (tickCount_zero_rate dn) s, fun rate => exec_ticks_of_eq (tickCount_zero_duration rate) s,
    exec_ticks_of_eq (n := 0) (by decide) s, exec_ticks_of_eq (n := 1) (by decide) s, exec_ticks_of_eq (n := 0) (by decide) s⟩

end Sys2Proof.Machine
end

section
/-! PROOFS of the statements about the oscillator (spec/42_oscillator.md R140 to R159). They turn on three facts: a tick of the
exact carrier multiplies the value it stands for by `exp(i*theta)` (`turn_value`); a construction and a row of ticks run to the
end over every carrier whose samples are in range (`runOn_construct_ticks`), and so in the machine
(`runCommands_construct_ticks`); and a word does to the block over the real numbers what it does to the block over the exact
carrier (`wordOn_realBlock`). -/

namespace Sys2Proof.Machine

/-! The starting value and the configuration (R141, R152) -/

theorem norm_startValue_sq (z0 : Config.StartValue) :
    ‖startValue z0‖ ^ 2 = ((z0.re : ℝ) * z0.re + z0.im * z0.im) / (z0.den * z0.den) := by
  rw [← Complex.normSq_eq_norm_sq, startValue, map_div₀, Complex.normSq_natCast]
  simp [Complex.normSq_apply]

theorem startValue_ne_zero_iff {z0 : Config.StartValue} (hd : z0.den ≠ 0) :
    startValue z0 ≠ 0 ↔ z0.re ≠ 0 ∨ z0.im ≠ 0 := by
  have hd' : (z0.den : ℂ) ≠ 0 := by exact_mod_cast hd
  rw [startValue, Ne, div_eq_zero_iff, or_iff_left hd', Complex.ext_iff]
  simp [imp_iff_not_or]

/-- The integer checks compare the magnitude of `Z0` with a rational number, squared and multiplied out. -/
theorem scaled_square_iff {z0 : Config.StartValue} (hd : z0.den ≠ 0) (x : ℤ) {u : ℤ} (hu : 0 < u) :
    (x * x * (z0.den * z0.den) ≤ (z0.re * z0.re + z0.im * z0.im) * (u * u) ↔ |(x : ℝ) / u| ≤ ‖startValue z0‖) ∧
    ((z0.re * z0.re + z0.im * z0.im) * (u * u) ≤ x * x * (z0.den * z0.den) ↔ ‖startValue z0‖ ≤ |(x : ℝ) / u|) := by
  have hu' : (0 : ℝ) < u := by exact_mod_cast hu
  have hd' : (0 : ℝ) < z0.den := by exact_mod_cast Nat.pos_of_ne_zero hd
  rw [← abs_of_nonneg (norm_nonneg (startValue z0)), ← sq_le_sq, ← sq_le_sq, norm_startValue_sq, div_pow, sq, sq,
    div_le_div_iff₀ (by positivity) (by positivity), div_le_div_iff₀ (by positivity) (by positivity)]
  constructor <;> norm_cast

theorem startValue_params : startValue Config.params.z0 = ((0.707 : ℝ) : ℂ) := by
  simp [startValue, Config.params, Config.defaultStart]
  norm_num

theorem norm_startValue_params : ‖startValue Config.params.z0‖ = 0.707 := by
  rw [startValue_params, Complex.norm_real, Real.norm_of_nonneg (by norm_num)]

/-- The bound on `EPS_MAG` (R152), multiplied out. -/
theorem epsMag_bound_iff {p : Config.Params} (he : p.epsDen ≠ 0) :
    ((707 * p.epsDen + 1000 * p.epsNum : ℤ) * (2 * 32767) < 65535 * (1000 * (p.epsDen : ℤ))) ↔
      epsMag p < 32767.5 / 32767 - 0.707 := by
  have he' : (0 : ℝ) < p.epsDen := by exact_mod_cast Nat.pos_of_ne_zero he
  rw [epsMag, div_lt_iff₀ he', ← @Int.cast_lt ℝ]
  push_cast
  constructor <;> intro h <;> linarith

/-- What the check of a configuration says over the real numbers (R141, R152; log entry 19). -/
theorem wf_iff (p : Config.Params) : p.wf = true ↔
    p.z0.den ≠ 0 ∧ p.epsDen ≠ 0 ∧ startValue p.z0 ≠ 0 ∧ |‖startValue p.z0‖ - 0.707| ≤ epsMag p ∧
      epsMag p < 32767.5 / 32767 - 0.707 := by
  simp only [Config.Params.wf, Bool.and_eq_true, bne_iff_ne, Bool.or_eq_true, decide_eq_true_eq, and_assoc]
  refine and_congr_right fun hd => and_congr_right fun he => ?_
  have he' : (0 : ℝ) < p.epsDen := by exact_mod_cast Nat.pos_of_ne_zero he
  have hu : (0 : ℤ) < 1000 * p.epsDen := by omega
  have hlo : (((707 * p.epsDen - 1000 * p.epsNum : ℤ) : ℝ) / (1000 * p.epsDen : ℤ)) = 0.707 - epsMag p := by
    rw [epsMag]; push_cast; field_simp; ring
  have hhi : (((707 * p.epsDen + 1000 * p.epsNum : ℤ) : ℝ) / (1000 * p.epsDen : ℤ)) = 0.707 + epsMag p := by
    rw [epsMag]; push_cast; field_simp; ring
  rw [startValue_ne_zero_iff hd, (scaled_square_iff hd _ hu).1, (scaled_square_iff hd _ hu).2, hlo, hhi,
    epsMag_bound_iff he]
  refine and_congr_right fun _ => ?_
  rw [← and_assoc]
  refine and_congr_left fun heps => ?_
  have h0 : 0 ≤ epsMag p := by unfold epsMag; positivity
  rw [abs_of_nonneg (by linarith), abs_of_nonneg (by linarith), abs_le]
  exact and_congr ⟨fun h => by linarith, fun h => by linarith⟩ ⟨fun h => by linarith, fun h => by linarith⟩

/-- Settles O24: the integer checks are the constraints over the real numbers, and `|Z0|` of the default is 0.707. -/
theorem configurationConstraints : Obligations.ConfigurationConstraints :=
  ⟨wf_iff, params_wf, norm_startValue_params⟩

/-- A magnitude that an admissible configuration allows, scaled, stays below the first tie above 32767 (R150, R152). -/
theorem scaled_magnitude_lt {p : Config.Params} (hp : p.wf = true) {m : ℝ} (hm : |m - 0.707| ≤ epsMag p) :
    m * 32767 < 32767 + 1 / 2 := by
  obtain ⟨-, -, -, -, heps⟩ := (wf_iff p).mp hp
  have hle := (abs_le.mp hm).2
  linarith

/-! Rounding (R151) -/

/-- An integer nearer than one half is the rounding. -/
theorem rhaReal_of_near {x : ℝ} {n : ℤ} (h : |x - n| < 1 / 2) : rhaReal x = n := by
  have hr := abs_le.mp (rhaReal_near x)
  have hx := abs_lt.mp h
  have h1 : (rhaReal x : ℝ) < n + 1 := by linarith
  have h2 : (n : ℝ) < rhaReal x + 1 := by linarith
  exact le_antisymm (Int.lt_add_one_iff.mp (by exact_mod_cast h1)) (Int.lt_add_one_iff.mp (by exact_mod_cast h2))

theorem rhaReal_of_nonneg {x : ℝ} (h : 0 ≤ x) : rhaReal x = ⌊x + 1 / 2⌋ := if_pos h

theorem rhaReal_neg (x : ℝ) : rhaReal (-x) = -rhaReal x := by
  obtain h | rfl | h := lt_trichotomy x 0
  · rw [rhaReal_of_nonneg (by linarith), rhaReal, if_neg (by linarith), neg_neg]
  · have h0 : rhaReal 0 = 0 := rhaReal_of_near (by norm_num)
    rw [neg_zero, h0, neg_zero]
  · rw [rhaReal_of_nonneg h.le, rhaReal, if_neg (by linarith), neg_neg]

theorem rhaReal_eq_sign (x : ℝ) : (rhaReal x : ℝ) = SignType.sign x * ⌊|x| + 1 / 2⌋ := by
  obtain h | rfl | h := lt_trichotomy x 0
  · rw [sign_neg h, abs_of_neg h, ← rhaReal_of_nonneg (neg_nonneg.mpr h.le), rhaReal_neg]; simp
  · rw [rhaReal_of_near (n := 0) (by norm_num)]; simp
  · rw [sign_pos h, abs_of_pos h, ← rhaReal_of_nonneg h.le]; simp

/-- Rounding keeps a bound on the magnitude. -/
theorem abs_rhaReal_le {x y : ℝ} (h : |x| ≤ y) : |rhaReal x| ≤ rhaReal y := by
  obtain ⟨h1, h2⟩ := abs_le.mp h
  rw [abs_le, ← rhaReal_neg]
  exact ⟨rhaReal_mono h1, rhaReal_mono h2⟩

theorem rhaReal_le_of_lt {x : ℝ} {n : ℤ} (h : x < n + 1 / 2) : rhaReal x ≤ n := by
  have hr := (abs_le.mp (rhaReal_near x)).2
  have h1 : (rhaReal x : ℝ) < n + 1 := by linarith
  exact Int.lt_add_one_iff.mp (by exact_mod_cast h1)

/-- Two roundings differ by at most one more than what they round. -/
theorem abs_rhaReal_sub_le (x y : ℝ) : |((rhaReal x - rhaReal y : ℤ) : ℝ)| ≤ |x - y| + 1 := by
  have hx := abs_le.mp (rhaReal_near x)
  have hy := abs_le.mp (rhaReal_near y)
  have hxy := abs_le.mp (le_refl |x - y|)
  push_cast
  rw [abs_le]
  constructor <;> linarith

/-! The value a phase stands for (R146, R159) -/

theorem mul_exp_re (w : ℂ) (x : ℝ) :
    (w * Complex.exp (Complex.I * x)).re = w.re * Real.cos x - w.im * Real.sin x := by
  rw [mul_comm Complex.I, Complex.mul_re, Complex.exp_ofReal_mul_I_re, Complex.exp_ofReal_mul_I_im]

theorem mul_exp_im (w : ℂ) (x : ℝ) :
    (w * Complex.exp (Complex.I * x)).im = w.re * Real.sin x + w.im * Real.cos x := by
  rw [mul_comm Complex.I, Complex.mul_im, Complex.exp_ofReal_mul_I_re, Complex.exp_ofReal_mul_I_im]

theorem norm_mul_exp (w : ℂ) (x : ℝ) : ‖w * Complex.exp (Complex.I * x)‖ = ‖w‖ := by
  rw [norm_mul, Complex.norm_exp_I_mul_ofReal, mul_one]

theorem norm_value (z0 : Config.StartValue) (z : Phase) : ‖z.value z0‖ = ‖startValue z0‖ := by
  rw [Phase.value, norm_mul, Complex.norm_exp_ofReal_mul_I, mul_one]

theorem angle_of_num_zero (d : ℕ) : (⟨0, d⟩ : Phase).angle = 0 := by simp [Phase.angle]

theorem value_of_num_zero (z0 : Config.StartValue) (d : ℕ) : (⟨0, d⟩ : Phase).value z0 = startValue z0 := by
  rw [Phase.value, angle_of_num_zero]; simp

/-- Whole turns leave the value (R146). -/
theorem value_mod (z0 : Config.StartValue) (n d : ℕ) : (⟨n % d, d⟩ : Phase).value z0 = (⟨n, d⟩ : Phase).value z0 := by
  rcases Nat.eq_zero_or_pos d with rfl | hd
  · rw [Nat.mod_zero]
  · have hd' : (d : ℝ) ≠ 0 := by exact_mod_cast hd.ne'
    have hn : (n : ℝ) = d * (n / d : ℕ) + (n % d : ℕ) := by exact_mod_cast (Nat.div_add_mod n d).symm
    have hangle : (⟨n, d⟩ : Phase).angle = (⟨n % d, d⟩ : Phase).angle + (n / d : ℕ) * (2 * Real.pi) := by
      simp only [Phase.angle]
      rw [hn]; field_simp; ring
    rw [Phase.value, Phase.value, hangle]
    push_cast
    rw [add_mul, mul_assoc ((n / d : ℕ) : ℂ), Complex.exp_add, Complex.exp_nat_mul_two_pi_mul_I, mul_one]

theorem turnCodes_cast (rate : Rate) : (turnCodes rate : ℝ) = 510 * rate.toNat := by simp [turnCodes, freqDen]

/-- A code is the fraction `theta / (2 pi)` of a turn (R143). -/
theorem theta_eq (f : FreqCode) (rate : Rate) : theta f rate = 2 * Real.pi * (f.toNat / turnCodes rate) := by
  rw [theta, turnCodes_cast, div_mul_div_comm, mul_div_assoc', mul_comm (f.toNat : ℝ)]

/-- A tick multiplies the value by `exp(i*theta)` (R147). -/
theorem turn_value (z0 : Config.StartValue) {rate : Rate} (f : FreqCode) {z : Phase} (h : z.den = turnCodes rate) :
    ((phaseCarrier z0).turn rate f z).value z0 = z.value z0 * Complex.exp (Complex.I * (theta f rate : ℝ)) := by
  have hangle : (⟨z.num + f.toNat, turnCodes rate⟩ : Phase).angle = z.angle + theta f rate := by
    rw [theta_eq, Phase.angle, Phase.angle, h]; push_cast; ring
  rw [phaseCarrier_turn z0 f h, value_mod, Phase.value, hangle, Phase.value, Complex.ofReal_add, add_mul,
    Complex.exp_add, mul_comm Complex.I, mul_assoc]

/-- `P` of the closed form: the accumulated phase in turns (R146). -/
noncomputable abbrev turnsOf (rate : Rate) (fs : List FreqCode) : ℝ :=
  Int.fract (((fs.map BitVec.toNat).sum : ℝ) / (510 * (rate.toNat : ℝ)))

/-- The value after a construction and a row of ticks (R146). -/
theorem after_value (z0 : Config.StartValue) (rate : Rate) (fs : List FreqCode) :
    ((phaseCarrier z0).after rate fs).value z0 =
      startValue z0 * Complex.exp (Complex.I * (2 * Real.pi * turnsOf rate fs : ℝ)) := by
  rw [phaseCarrier_after, turnsOf, ← turnCodes_cast, Int.fract_div_natCast_eq_div_natCast_mod, mul_comm Complex.I]
  rfl

/-! The exact carrier with the default `Z0` (log entry 5) -/

theorem re_params (z : Phase) : z.re Config.params.z0 = 0.707 * Real.cos z.angle := by
  rw [Phase.re, Phase.value, startValue_params, Complex.re_ofReal_mul, Complex.exp_ofReal_mul_I_re]

theorem im_params (z : Phase) : z.im Config.params.z0 = 0.707 * Real.sin z.angle := by
  rw [Phase.im, Phase.value, startValue_params, Complex.im_ofReal_mul, Complex.exp_ofReal_mul_I_im]

theorem outputValue_params (z : Phase) : outputValue Config.params.z0 z = 23166269 / 1000 * Real.cos z.angle := by
  rw [outputValue, re_params]; ring

/-- A whole number of turns is reached after `den` times the angle. -/
theorem cos_den_mul_angle {z : Phase} (hd : z.den ≠ 0) : Real.cos (z.den * z.angle) = 1 := by
  have hd' : (z.den : ℝ) ≠ 0 := by exact_mod_cast hd
  have h : (z.den : ℝ) * z.angle = z.num * (2 * Real.pi) := by rw [Phase.angle]; field_simp
  rw [h, Real.cos_nat_mul_two_pi]

/-- With the default `Z0` no phase gives a tie (R151). -/
theorem outputValue_not_tie {z : Phase} (hd : z.den ≠ 0) (m : ℤ) : outputValue Config.params.z0 z ≠ m + 1 / 2 := by
  intro h
  have hgap := tie_gap z.den (Nat.pos_of_ne_zero hd) z.angle (cos_den_mul_angle hd) m
  rw [← outputValue_params, h, sub_self, abs_zero] at hgap
  have hd' : (0 : ℝ) < z.den := by exact_mod_cast Nat.pos_of_ne_zero hd
  exact absurd hgap (not_le.mpr (by positivity))

theorem two_and_a_half_rounds_up : rhaReal 2.5 = 3 := by
  rw [rhaReal_of_nonneg (by norm_num)]
  norm_num

/-- Settles O43: the rounding has a sign and a magnitude, and `tie_gap` keeps every phase away from a tie. -/
theorem roundingOfTheSample : Obligations.RoundingOfTheSample :=
  ⟨rhaReal_eq_sign, fun n d hd => rha_eq_rhaReal n d (Nat.pos_of_ne_zero hd), two_and_a_half_rounds_up,
    by rw [rhaReal_neg, two_and_a_half_rounds_up], rhaReal_of_near (by norm_num [abs_lt]),
    fun _ m hd => outputValue_not_tie hd m⟩

/-- Settles O42: the refinement decides within its schedule for every phase over `510*RATE`. -/
theorem sampleIsExact : Obligations.SampleIsExact := fun rate z h0 hden =>
  sampleOf_eq_rhaReal z (hden ▸ turnCodes_pos h0) (hden ▸ turnCodes_lt rate)

/-! Construction (R140, R142, R156) -/

theorem opField_formatN (op : BitVec 4) (zero : BitVec 28) (x : BitVec 32) : opField (op ++ zero ++ x) = op := by
  unfold opField bits
  rw [BitVec.extractLsb'_append_eq_of_le (v := 32) (w := 32) (by decide)]
  exact BitVec.extractLsb'_append_eq_left

theorem zeroField_formatN (op : BitVec 4) (zero : BitVec 28) (x : BitVec 32) : bits (op ++ zero ++ x) 32 28 = zero := by
  unfold bits
  rw [BitVec.extractLsb'_append_eq_of_le (v := 32) (w := 32) (by decide)]
  exact BitVec.extractLsb'_append_eq_right

/-- A word of format N or F with a nonzero `zero` field is no command (R68 c). -/
theorem perform_oscillator_reserved {op : BitVec 4} (hop : op = 3#4 ∨ op = 4#4) {zero : BitVec 28} (h : zero ≠ 0#28)
    (x : BitVec 32) (s : State) : perform (op ++ zero ++ x) s = .next (respond .illegal 0#48 s) := by
  have hz : bits (op ++ zero ++ x) 32 28 ≠ 0#28 := by rwa [zeroField_formatN]
  have hreserved : (opField (op ++ zero ++ x) = 3#4 ∧ bits (op ++ zero ++ x) 32 28 ≠ 0#28) ∨
      (opField (op ++ zero ++ x) = 4#4 ∧ bits (op ++ zero ++ x) 32 28 ≠ 0#28) :=
    hop.imp (fun e => ⟨(opField_formatN op zero x).trans e, hz⟩) (fun e => ⟨(opField_formatN op zero x).trans e, hz⟩)
  obtain ⟨_, hd⟩ := (decode_error_iff _).mpr (.inr (.inr (.inr (.inr hreserved))))
  exact perform_error hd s

/-- A construction is answered with a `Z` that is `Z0` (R140). -/
theorem exec_oscnew_constructs {rate : Rate} (h0 : rate ≠ 0#32) (s : State) :
    ∃ z : Phase, z.value Config.params.z0 = startValue Config.params.z0 ∧
      exec (.oscnew rate) s =
        .next { valid := true, rate := some rate, z := some z, inputs := s.inputs, responses := s.responses ++ [0#64] } :=
  ⟨_, value_of_num_zero _ _, exec_oscnew_pos h0 s⟩

/-- Settles O38: a positive rate constructs, rate 0 is refused, and the word of format N is the encoded command. -/
theorem oscnewConstructs : Obligations.OscnewConstructs := by
  refine ⟨fun rate s h0 => exec_oscnew_constructs h0 s, exec_oscnew_zero, fun rate s =>
    ⟨perform_ok (decode_encode (.oscnew rate)) s, fun zero hz => perform_oscillator_reserved (.inl rfl) hz rate s⟩,
    fun s => ?_⟩
  rw [perform_ok (i := .oscnew 8000#32) (by decide)]
  exact exec_oscnew_constructs (by decide) s

/-- Settles O39: the constructed block depends on the rate alone, and a refused construction leaves the block. -/
theorem oscnewStartsAgain : Obligations.OscnewStartsAgain := by
  refine ⟨fun rate s s' t t' h0 h h' => ?_, fun rate s h0 => ⟨_, exec_oscnew_pos h0 s⟩, fun s t h => ?_⟩
  · rw [exec_oscnew_pos h0] at h h'
    obtain rfl := Host.Outcome.next.inj h
    obtain rfl := Host.Outcome.next.inj h'
    exact ⟨rfl, rfl, rfl, _, rfl, value_of_num_zero _ _⟩
  · rw [exec_oscnew_zero] at h
    obtain rfl := Host.Outcome.next.inj h
    rfl

/-! One tick (R143 to R155) -/

/-- Settles O40: `VALID` is looked at before anything else. -/
theorem osctickBeforeConstruction : Obligations.OsctickBeforeConstruction := fun f _ => exec_osctick_invalid f

/-- The oscillator is constructed with a legal rate and a phase of one turn over it (R21, R159). -/
structure Constructed (s : State) (rate : Rate) (z : Phase) : Prop where
  valid : s.valid = true
  rate_eq : s.rate = some rate
  z_eq : s.z = some z
  rate_ne : rate ≠ 0#32
  den_eq : z.den = turnCodes rate
  num_lt : z.num < z.den

theorem legal_constructed_cases {s : State} (hs : s.Inv) :
    (s.valid = false ∧ s.rate = none ∧ s.z = none) ∨ ∃ rate z, Constructed s rate z :=
  (legal_cases hs).imp_right fun ⟨rate, z, hv, hr, hz, h0, hden, hnum⟩ => ⟨rate, z, hv, hr, hz, h0, hden, hnum⟩

theorem constructed_of_valid {s : State} (hs : s.Inv) (hv : s.valid = true) : ∃ rate z, Constructed s rate z :=
  (legal_constructed_cases hs).resolve_left fun h => absurd (hv.symm.trans h.1) (by decide)

theorem constructed_of_rate {s : State} {rate : Rate} (hs : s.Inv) (hr : s.rate = some rate) :
    ∃ z, Constructed s rate z := by
  obtain ⟨-, hnone, -⟩ | ⟨rate', z, h⟩ := legal_constructed_cases hs
  · cases hr.symm.trans hnone
  · obtain rfl := Option.some.inj (hr.symm.trans h.rate_eq)
    exact ⟨z, h⟩

theorem constructed_of_z {s : State} {z : Phase} (hs : s.Inv) (hz : s.z = some z) : ∃ rate, Constructed s rate z := by
  obtain ⟨-, -, hnone⟩ | ⟨rate, z', h⟩ := legal_constructed_cases hs
  · cases hz.symm.trans hnone
  · obtain rfl := Option.some.inj (hz.symm.trans h.z_eq)
    exact ⟨rate, h⟩

theorem constructed_of_values {s : State} {rate : Rate} {z : Phase} (hs : s.Inv) (hr : s.rate = some rate)
    (hz : s.z = some z) : Constructed s rate z := by
  obtain ⟨rate', h⟩ := constructed_of_z hs hz
  obtain rfl := Option.some.inj (hr.symm.trans h.rate_eq)
  exact h

/-- `Z` after one tick. -/
abbrev turned (rate : Rate) (f : FreqCode) (z : Phase) : Phase := (phaseCarrier Config.params.z0).turn rate f z

theorem turned_den (f : FreqCode) {rate : Rate} {z : Phase} (h : z.den = turnCodes rate) :
    (turned rate f z).den = turnCodes rate := by
  rw [turned, phaseCarrier_turn _ f h]

namespace Constructed

variable {s : State} {rate : Rate} {z : Phase} (h : Constructed s rate z)
include h

/-- A tick is answered with the rounding of the new state's real part, and writes `Z` alone (R143, R144). -/
theorem exec_osctick (f : FreqCode) :
    exec (.osctick f) s = .next (respond .ok
      (samplePayload (BitVec.ofInt 16 (rhaReal (outputValue Config.params.z0 (turned rate f z)))))
      { s with z := some (turned rate f z) }) := by
  rw [exec_osctick_answers f h.valid h.rate_eq h.z_eq h.rate_ne h.den_eq,
    ← sampleIsExact rate (turned rate f z) h.rate_ne (turned_den f h.den_eq)]
  rfl

/-- The state a tick leaves is constructed too. -/
theorem tick_constructed (f : FreqCode) {t : State} (ht : exec (.osctick f) s = .next t) :
    Constructed t rate (turned rate f z) := by
  rw [h.exec_osctick f] at ht
  obtain rfl := Host.Outcome.next.inj ht
  refine ⟨h.valid, h.rate_eq, rfl, h.rate_ne, turned_den f h.den_eq, ?_⟩
  rw [turned, phaseCarrier_turn _ f h.den_eq]
  exact Nat.mod_lt _ (turnCodes_pos h.rate_ne)

end Constructed

/-- `rha(|Z0| * 32767)` for the default `Z0` (R148). -/
theorem sample_bound_params : rhaReal (‖startValue Config.params.z0‖ * 32767) = 23166 := by
  rw [norm_startValue_params]
  exact rhaReal_of_near (by norm_num [abs_lt])

/-- A `Z` of magnitude at most `m` gives a sample within `rha(m * 32767)` (R148). -/
theorem abs_sample_le_of_norm_le {m : ℝ} {w : ℂ} (hw : ‖w‖ ≤ m) : |rhaReal (w.re * 32767)| ≤ rhaReal (m * 32767) := by
  refine abs_rhaReal_le ?_
  rw [abs_mul, abs_of_pos (by norm_num : (0 : ℝ) < 32767)]
  exact mul_le_mul_of_nonneg_right ((Complex.abs_re_le_norm w).trans hw) (by norm_num)

theorem abs_sample_le (z : Phase) : |rhaReal (outputValue Config.params.z0 z)| ≤ 23166 :=
  (abs_sample_le_of_norm_le (norm_value _ z).le).trans_eq sample_bound_params

/-- Every sample is in the range of the 16-bit conversion (R150). -/
theorem sample_in_range (z : Phase) :
    -32768 ≤ rhaReal (outputValue Config.params.z0 z) ∧ rhaReal (outputValue Config.params.z0 z) ≤ 32767 := by
  have h := abs_le.mp (abs_sample_le z)
  omega

/-- Settles O45: a tick multiplies by `exp(i*theta)`, whose magnitude is 1. -/
theorem magnitudeInvariant : Obligations.MagnitudeInvariant := by
  refine ⟨fun z0 rate f z _ hden => ⟨turn_value z0 f hden, by rw [norm_value, norm_value]⟩, fun f s rate z hs hr hz => ?_⟩
  have h := constructed_of_values hs hr hz
  refine ⟨_, turned rate f z, h.exec_osctick f, rfl, turn_value _ f h.den_eq, ?_, norm_value _ _, ?_⟩
  · rw [norm_value, norm_value]
  · rw [norm_value, norm_startValue_params]

theorem theta_nonneg (f : FreqCode) (rate : Rate) : 0 ≤ theta f rate := by
  unfold theta
  positivity

/-- The chord of one tick (R149). -/
theorem norm_turned_sub (f : FreqCode) {rate : Rate} {z : Phase} (hden : z.den = turnCodes rate) :
    ‖(turned rate f z).value Config.params.z0 - z.value Config.params.z0‖ =
      ‖startValue Config.params.z0‖ * ‖Complex.exp (Complex.I * (theta f rate : ℝ)) - 1‖ := by
  rw [turn_value _ f hden, ← mul_sub_one, norm_mul, norm_value]

theorem abs_outputValue_sub_le (z0 : Config.StartValue) (z' z : Phase) :
    |outputValue z0 z' - outputValue z0 z| ≤ 32767 * ‖z'.value z0 - z.value z0‖ := by
  have hre : outputValue z0 z' - outputValue z0 z = 32767 * (z'.value z0 - z.value z0).re := by
    rw [outputValue, outputValue, Phase.re, Phase.re, Complex.sub_re]
    ring
  rw [hre, abs_mul, abs_of_pos (by norm_num : (0 : ℝ) < 32767)]
  exact mul_le_mul_of_nonneg_left (Complex.abs_re_le_norm _) (by norm_num)

/-- Settles O47: the chord of the arc `theta` bounds the move of `Z`, and each rounding adds at most one half. -/
theorem phaseContinuity : Obligations.PhaseContinuity := by
  intro f s t rate z z' hs hr hz ht hz'
  have h := constructed_of_values hs hr hz
  have h' := h.tick_constructed f ht
  obtain rfl := Option.some.inj (hz'.symm.trans h'.z_eq)
  have harc : ‖(turned rate f z).value Config.params.z0 - z.value Config.params.z0‖ ≤
      ‖startValue Config.params.z0‖ * theta f rate := by
    rw [norm_turned_sub f h.den_eq]
    have hchord := Real.norm_exp_I_mul_ofReal_sub_one_le.trans_eq (Real.norm_of_nonneg (theta_nonneg f rate))
    exact mul_le_mul_of_nonneg_left hchord (norm_nonneg _)
  refine ⟨?_, harc, ?_⟩
  · rw [norm_turned_sub f h.den_eq, Complex.norm_exp_I_mul_ofReal_sub_one, Real.norm_eq_abs, abs_mul, abs_two]
    ring
  · rw [sampleIsExact rate _ h.rate_ne h'.den_eq, sampleIsExact rate _ h.rate_ne h.den_eq]
    calc _ ≤ |outputValue Config.params.z0 (turned rate f z) - outputValue Config.params.z0 z| + 1 := abs_rhaReal_sub_le _ _
      _ ≤ 32767 * ‖(turned rate f z).value Config.params.z0 - z.value Config.params.z0‖ + 1 :=
        add_le_add_left (abs_outputValue_sub_le _ _ _) 1
      _ ≤ 32767 * (‖startValue Config.params.z0‖ * theta f rate) + 1 := by gcongr
      _ = _ := by ring

/-- Codes that agree modulo one turn per sample turn alike (R153). -/
theorem turned_congr {f g : FreqCode} {rate : Rate} {z : Phase} (hden : z.den = turnCodes rate)
    (h : f.toNat % turnCodes rate = g.toNat % turnCodes rate) : turned rate f z = turned rate g z := by
  rw [turned, turned, phaseCarrier_turn _ f hden, phaseCarrier_turn _ g hden, Nat.add_mod, h, ← Nat.add_mod]

theorem exec_osctick_congr {f g : FreqCode} {s : State} {rate : Rate} (hs : s.Inv) (hr : s.rate = some rate)
    (h : f.toNat % turnCodes rate = g.toNat % turnCodes rate) : exec (.osctick f) s = exec (.osctick g) s := by
  obtain ⟨z, hc⟩ := constructed_of_rate hs hr
  rw [hc.exec_osctick f, hc.exec_osctick g, turned_congr hc.den_eq h]

/-- Settles O48: a tick depends on its code modulo `510*RATE` alone. -/
theorem codesAliasByWholeTurns : Obligations.CodesAliasByWholeTurns := by
  refine ⟨fun f f' m s rate hs hr hf => exec_osctick_congr hs hr ?_, fun f s rate hs hr hf => exec_osctick_congr hs hr ?_⟩
  · rw [hf]
    exact Nat.add_mul_mod_self_right _ _ _
  · rw [hf]
    exact Nat.mod_self (turnCodes rate)

/-- Zero frequency leaves `Z` as it is (R155). -/
theorem turned_zero {rate : Rate} {z : Phase} (hden : z.den = turnCodes rate) (hnum : z.num < z.den) :
    turned rate 0#32 z = z := by
  rw [turned, phaseCarrier_turn _ _ hden, ← hden]
  simp [Nat.mod_eq_of_lt hnum]

theorem Constructed.exec_osctick_zero {s : State} {rate : Rate} {z : Phase} (h : Constructed s rate z) :
    exec (.osctick 0#32) s =
      .next (respond .ok (samplePayload (BitVec.ofInt 16 (rhaReal (outputValue Config.params.z0 z)))) s) := by
  rw [h.exec_osctick 0#32, turned_zero h.den_eq h.num_lt]
  obtain ⟨v, r, _, i, p⟩ := s
  obtain rfl := h.z_eq
  rfl

/-! Runs of a construction and ticks -/

/-- The responses of a construction and a row of ticks: `OK`, and then the samples of the carrier. -/
def Carrier.answers {Z : Type} (c : Carrier Z) (rate : Rate) (fs : List FreqCode) : List Word :=
  responseWord .ok 0#48 :: (List.range fs.length).map fun k =>
    responseWord .ok (samplePayload (BitVec.ofInt 16 (c.sample (c.after rate (fs.take (k + 1))))))

/-- The words of a construction and a row of ticks. -/
abbrev tickWords (rate : Rate) (fs : List FreqCode) : List Word :=
  encode (.oscnew rate) :: fs.map fun f => encode (.osctick f)

section Runs

variable {Z : Type} {p : Config.Params} {c : Carrier Z} {rate : Rate}

/-- A tick whose sample is in range is answered with it (R143, R150). -/
theorem oscTick_in_range (hp : p.wf = true) {f : FreqCode} {b : Block Z} {z : Z} (hv : b.valid = true)
    (hr : b.rate = some rate) (hz : b.z = some z)
    (hrange : -32768 ≤ c.sample (c.turn rate f z) ∧ c.sample (c.turn rate f z) ≤ 32767) :
    oscTick p c f b =
      finish (samplePayload (BitVec.ofInt 16 (c.sample (c.turn rate f z)))) (writeZ (c.turn rate f z) b) := by
  rw [oscTick_valid c hp f hv hr hz, toI16_some hrange]

theorem wordOn_encode (i : Instr) (b : Block Z) : wordOn p c (encode i) b = commandOn p c i b :=
  wordOn_ok p c (decode_encode i) b

/-- A row of ticks after the ticks `gs`, by induction on the row: each tick rotates the state the one before left. -/
theorem runOn_ticks (hp : p.wf = true) (fs gs : List FreqCode)
    (hrange : ∀ k < fs.length, -32768 ≤ c.sample (c.after rate (gs ++ fs.take (k + 1))) ∧
      c.sample (c.after rate (gs ++ fs.take (k + 1))) ≤ 32767) :
    runOn p c (fs.map fun f => encode (.osctick f)) (construct rate (c.after rate gs)) =
      .next (construct rate (c.after rate (gs ++ fs)), (List.range fs.length).map fun k =>
        responseWord .ok (samplePayload (BitVec.ofInt 16 (c.sample (c.after rate (gs ++ fs.take (k + 1))))))) := by
  induction fs generalizing gs with
  | nil => simp
  | cons f fs ih =>
    have hjoin (l : List FreqCode) : gs ++ [f] ++ l = gs ++ f :: l := by rw [List.append_assoc, List.singleton_append]
    have hfirst := hrange 0 (by simp)
    have hrest := ih (gs ++ [f]) fun k hk => by
      rw [hjoin]
      exact hrange (k + 1) (by simpa using hk)
    simp only [hjoin] at hrest
    rw [List.take_succ_cons, List.take_zero, c.after_concat] at hfirst
    rw [c.after_concat] at hrest
    have htick := (wordOn_encode (p := p) (.osctick f) (construct rate (c.after rate gs))).trans
      (oscTick_in_range (b := construct rate (c.after rate gs)) hp rfl rfl rfl hfirst)
    rw [List.map_cons, runOn_cons_finish p c htick hrest, List.length_cons,
      List.range_succ_eq_map, List.map_cons, List.map_map, ← c.after_concat]
    rfl

/-- Under an admissible configuration a construction and a row of ticks are answered with the samples of the carrier, if
they are in range (R146, R150, R152). -/
theorem runOn_construct_ticks (hp : p.wf = true) (h0 : rate ≠ 0#32) (fs : List FreqCode) (b : Block Z)
    (hrange : ∀ k < fs.length, -32768 ≤ c.sample (c.after rate (fs.take (k + 1))) ∧
      c.sample (c.after rate (fs.take (k + 1))) ≤ 32767) :
    runOn p c (tickWords rate fs) b = .next (construct rate (c.after rate fs), c.answers rate fs) :=
  runOn_cons_finish p c ((wordOn_encode (.oscnew rate) b).trans (oscNew_pos c hp h0 b)) (runOn_ticks hp fs [] hrange)

end Runs

/-! The machine's runs are the block's runs over the exact carrier -/

/-- A run that ends has had its first word answered. -/
theorem runOn_cons_eq_next {Z : Type} {p : Config.Params} {c : Carrier Z} {w : Word} {ws : List Word} {b b' : Block Z}
    {rsps : List Word} (h : runOn p c (w :: ws) b = .next (b', rsps)) :
    ∃ r rsps', wordOn p c w b = .next r ∧ runOn p c ws r.block = .next (b', rsps') ∧
      rsps = responseWord r.status r.payload :: rsps' := by
  unfold runOn at h
  split at h
  · cases h
  · cases h
  · next r hw =>
    split at h
    · next b1 rsps' hrun =>
      obtain ⟨rfl, rfl⟩ := Prod.mk.inj (Host.Outcome.next.inj h)
      exact ⟨r, rsps', hw, hrun, rfl⟩
    · cases h
    · cases h

/-- The state after a run of the block: its block, and its responses behind those before. -/
def State.afterRun (s : State) (b : Block Phase) (rsps : List Word) : State :=
  { s.withBlock b with responses := s.responses ++ rsps }

/-- What the block answers over the exact carrier the machine answers, by induction on the words. -/
theorem runCommands_of_runOn {ws : List Word} {s : State} {b : Block Phase} {rsps : List Word}
    (h : runOn Config.params (phaseCarrier Config.params.z0) ws s.block = .next (b, rsps)) :
    runCommands ws s = .next (s.afterRun b rsps) := by
  induction ws generalizing s rsps with
  | nil =>
    obtain ⟨rfl, rfl⟩ := Prod.mk.inj (Host.Outcome.next.inj h)
    simp [runCommands, State.afterRun]
  | cons w ws ih =>
    obtain ⟨r, rsps', hw, hrun, rfl⟩ := runOn_cons_eq_next h
    rw [runCommands_cons, perform_eq_wordOn, hw, deliver_next]
    refine (ih (s := respond r.status r.payload (s.withBlock r.block)) hrun).trans ?_
    simp [State.afterRun, State.withBlock]

/-- After a construction and a row of ticks the exact carrier's sample is the rounding over the real numbers. -/
theorem sample_after {rate : Rate} (h0 : rate ≠ 0#32) (fs : List FreqCode) :
    (phaseCarrier Config.params.z0).sample ((phaseCarrier Config.params.z0).after rate fs) =
      rhaReal (outputValue Config.params.z0 ((phaseCarrier Config.params.z0).after rate fs)) :=
  sampleIsExact rate _ h0 (by rw [phaseCarrier_after])

/-- The machine runs a construction and any row of ticks to the end, from every state. -/
theorem runCommands_construct_ticks {rate : Rate} (h0 : rate ≠ 0#32) (fs : List FreqCode) (s : State) :
    runCommands (tickWords rate fs) s = .next (s.afterRun
      (construct rate ((phaseCarrier Config.params.z0).after rate fs)) ((phaseCarrier Config.params.z0).answers rate fs)) := by
  refine runCommands_of_runOn (runOn_construct_ticks params_wf h0 fs s.block fun k _ => ?_)
  rw [sample_after h0]
  exact sample_in_range _

/-- Two rows of ticks after which the exact carrier outputs the same real numbers have the same answers. -/
theorem answers_congr {rate : Rate} (h0 : rate ≠ 0#32) {fs gs : List FreqCode} (hlen : fs.length = gs.length)
    (h : ∀ n, outputValue Config.params.z0 ((phaseCarrier Config.params.z0).after rate (fs.take n)) =
      outputValue Config.params.z0 ((phaseCarrier Config.params.z0).after rate (gs.take n))) :
    (phaseCarrier Config.params.z0).answers rate fs = (phaseCarrier Config.params.z0).answers rate gs := by
  simp only [Carrier.answers, sample_after h0, h, hlen]

/-- A row of codes and the row of mirrored codes make together a whole turn per tick (R153). -/
theorem sum_add_sum_mirrored {m : ℕ} {fs gs : List FreqCode} (h : List.Forall₂ (fun f g => f.toNat + g.toNat = m) fs gs) :
    (fs.map BitVec.toNat).sum + (gs.map BitVec.toNat).sum = fs.length * m := by
  induction h with
  | nil => simp
  | cons hfg _ ih =>
    simp only [List.map_cons, List.sum_cons, List.length_cons]
    linarith

/-- The real part of `Z` does not tell a phase from its mirror image (R153). -/
theorem outputValue_mirrored {n m k d : ℕ} (h : n + m = k * d) :
    outputValue Config.params.z0 ⟨n % d, d⟩ = outputValue Config.params.z0 ⟨m % d, d⟩ := by
  have hmod (j : ℕ) : outputValue Config.params.z0 ⟨j % d, d⟩ = outputValue Config.params.z0 ⟨j, d⟩ := by
    rw [outputValue, outputValue, Phase.re, Phase.re, value_mod]
  rw [hmod, hmod, outputValue_params, outputValue_params]
  rcases Nat.eq_zero_or_pos d with rfl | hd
  · simp [Phase.angle]
  · have hd' : (d : ℝ) ≠ 0 := by exact_mod_cast hd.ne'
    have hn : (n : ℝ) = k * d - m := by rw [eq_sub_iff_add_eq]; exact_mod_cast h
    have hangle : (⟨n, d⟩ : Phase).angle = k * (2 * Real.pi) - (⟨m, d⟩ : Phase).angle := by
      simp only [Phase.angle]
      rw [hn]; field_simp
    rw [hangle, Real.cos_nat_mul_two_pi_sub]

/-- Settles O49: the sums of the two rows add up to whole turns, and the cosine does not tell a phase from its mirror image. -/
theorem mirroredCodesGiveTheSameSamples : Obligations.MirroredCodesGiveTheSameSamples := by
  intro rate fs gs s t t' h0 hmirror ht ht'
  obtain rfl := Host.Outcome.next.inj ((runCommands_construct_ticks h0 fs s).symm.trans ht)
  obtain rfl := Host.Outcome.next.inj ((runCommands_construct_ticks h0 gs s).symm.trans ht')
  refine congrArg (s.responses ++ ·) (answers_congr h0 hmirror.length_eq fun n => ?_)
  rw [phaseCarrier_after, phaseCarrier_after]
  exact outputValue_mirrored (sum_add_sum_mirrored (List.forall₂_take n hmirror))

theorem after_zero_codes (z0 : Config.StartValue) (rate : Rate) (n : ℕ) :
    (phaseCarrier z0).after rate (List.replicate n 0#32) = ⟨0, turnCodes rate⟩ := by
  rw [phaseCarrier_after]
  simp

/-- The sample of the default `Z0` itself (R155). -/
theorem sample_of_num_zero {rate : Rate} (h0 : rate ≠ 0#32) :
    (phaseCarrier Config.params.z0).sample ⟨0, turnCodes rate⟩ = 23166 := by
  refine (sampleIsExact rate ⟨0, turnCodes rate⟩ h0 rfl).trans (rhaReal_of_near ?_)
  rw [outputValue_params, angle_of_num_zero, Real.cos_zero]
  norm_num [abs_lt]

/-- Settles O50: a tick of code 0 leaves the phase, and so repeats the rounding of the state it finds. -/
theorem zeroFrequencyHoldsTheState : Obligations.ZeroFrequencyHoldsTheState := by
  refine ⟨fun s z hs hz => ?_, fun f s t rsp hs hv ht hrsp => ?_, fun rate n s h0 => ?_⟩
  · obtain ⟨rate, h⟩ := constructed_of_z hs hz
    exact h.exec_osctick_zero
  · obtain ⟨rate, z, h⟩ := constructed_of_valid hs hv
    rw [(h.tick_constructed f ht).exec_osctick_zero]
    rw [h.exec_osctick f] at ht
    obtain rfl := Host.Outcome.next.inj ht
    obtain rfl := List.singleton_injective (List.append_cancel_left hrsp)
    rfl
  · have hrun := runCommands_construct_ticks h0 (List.replicate n 0#32) s
    rw [tickWords, List.map_replicate] at hrun
    refine ⟨_, hrun, congrArg (s.responses ++ ·) ?_⟩
    have hword : responseWord .ok (samplePayload (BitVec.ofInt 16 23166)) = 0x0000000000005A7E#64 := by decide
    simp only [Carrier.answers, List.take_replicate, after_zero_codes, sample_of_num_zero h0, hword, List.map_const',
      List.length_range, List.length_replicate]
    rfl

/-! A tick over the real numbers (R143) -/

/-- The real parts a tick leaves are those of the complex product (R143). -/
theorem turned_re_im (f : FreqCode) {rate : Rate} {z : Phase} (hden : z.den = turnCodes rate) :
    (turned rate f z).re Config.params.z0 =
      z.re Config.params.z0 * Real.cos (theta f rate) - z.im Config.params.z0 * Real.sin (theta f rate) ∧
    (turned rate f z).im Config.params.z0 =
      z.re Config.params.z0 * Real.sin (theta f rate) + z.im Config.params.z0 * Real.cos (theta f rate) := by
  have hvalue := turn_value Config.params.z0 f hden
  exact ⟨(congrArg Complex.re hvalue).trans (mul_exp_re _ _), (congrArg Complex.im hvalue).trans (mul_exp_im _ _)⟩

/-- A quarter turn of the worked example, at 8000 Hz: `Z.RE` is 0 and so is the sample. -/
theorem quarter_turn_values :
    (⟨1020000, 4080000⟩ : Phase).re Config.params.z0 = 0 ∧ (⟨1020000, 4080000⟩ : Phase).im Config.params.z0 = 0.707 ∧
    rhaReal (outputValue Config.params.z0 ⟨1020000, 4080000⟩) = 0 := by
  have hangle : (⟨1020000, 4080000⟩ : Phase).angle = Real.pi / 2 := by rw [Phase.angle]; push_cast; ring
  have hre : (⟨1020000, 4080000⟩ : Phase).re Config.params.z0 = 0 := by rw [re_params, hangle, Real.cos_pi_div_two, mul_zero]
  refine ⟨hre, by rw [im_params, hangle, Real.sin_pi_div_two, mul_one], rhaReal_of_near ?_⟩
  rw [outputValue, hre]
  norm_num

/-- A half turn of the worked example: `Z.RE` is -0.707, and the sample -23166. -/
theorem half_turn_values :
    (⟨2040000, 4080000⟩ : Phase).re Config.params.z0 = -0.707 ∧ (⟨2040000, 4080000⟩ : Phase).im Config.params.z0 = 0 ∧
    rhaReal (outputValue Config.params.z0 ⟨2040000, 4080000⟩) = -23166 := by
  have hangle : (⟨2040000, 4080000⟩ : Phase).angle = Real.pi := by rw [Phase.angle]; push_cast; ring
  have hre : (⟨2040000, 4080000⟩ : Phase).re Config.params.z0 = -0.707 := by rw [re_params, hangle, Real.cos_pi, mul_neg_one]
  refine ⟨hre, by rw [im_params, hangle, Real.sin_pi, mul_zero], rhaReal_of_near ?_⟩
  rw [outputValue, hre]
  norm_num [abs_lt]

/-- The worked example of R143: at 8000 Hz two ticks of 2000 Hz, a quarter turn each. -/
theorem osctick_worked_example : ∃ (t u : State) (z z' : Phase),
    runCommands [0x3000000000001F40#64, 0x40000000000F9060#64] State.reset = .next t ∧ t.responses = [0#64, 0#64] ∧
    t.z = some z ∧ z.re Config.params.z0 = 0 ∧ z.im Config.params.z0 = 0.707 ∧
    perform 0x40000000000F9060#64 t = .next u ∧ u.responses = [0#64, 0#64, 0x000000000000A582#64] ∧
    u.z = some z' ∧ z'.re Config.params.z0 = -0.707 ∧ z'.im Config.params.z0 = 0 := by
  obtain ⟨hre, him, hsample⟩ := quarter_turn_values
  obtain ⟨hre', him', hsample'⟩ := half_turn_values
  have hafter : (phaseCarrier Config.params.z0).after 8000#32 [1020000#32] = ⟨1020000, 4080000⟩ := by decide
  have hturned : turned 8000#32 1020000#32 ⟨1020000, 4080000⟩ = ⟨2040000, 4080000⟩ := by decide
  have hanswers : (phaseCarrier Config.params.z0).answers 8000#32 [1020000#32] = [0#64, 0#64] := by
    have hlast := (sample_after (rate := 8000#32) (by decide) [1020000#32]).trans (hafter ▸ hsample)
    simp only [Carrier.answers, List.length_singleton, List.range_one, List.map_singleton, List.take_succ_cons, List.take_zero,
      hlast]
    decide
  have hrun := runCommands_construct_ticks (rate := 8000#32) (by decide) [1020000#32] State.reset
  rw [hafter, hanswers] at hrun
  set t := State.reset.afterRun (construct 8000#32 ⟨1020000, 4080000⟩) [0#64, 0#64]
  have hc : Constructed t 8000#32 ⟨1020000, 4080000⟩ := ⟨rfl, rfl, rfl, by decide, by decide, by decide⟩
  have htick := (perform_ok (i := .osctick 1020000#32) (w := 0x40000000000F9060#64) (by decide) t).trans
    (hc.exec_osctick 1020000#32)
  rw [hturned, hsample'] at htick
  exact ⟨t, _, _, _, hrun, rfl, rfl, hre, him, htick, rfl, rfl, hre', him'⟩

/-- Settles O41: the parts of the product with `exp(i*theta)`, and the rounding of the new real part. -/
theorem osctickRotatesAndAnswers : Obligations.OsctickRotatesAndAnswers := by
  refine ⟨fun f _ => exec_osctick_invalid f, fun f s => ⟨perform_ok (decode_encode (.osctick f)) s, fun zero hz =>
    perform_oscillator_reserved (.inr rfl) hz f s⟩, osctick_worked_example, fun f s hs hv => ?_⟩
  obtain ⟨rate, z, h⟩ := constructed_of_valid hs hv
  obtain ⟨hre, him⟩ := turned_re_im f h.den_eq
  obtain ⟨hlo, hhi⟩ := sample_in_range (turned rate f z)
  exact ⟨rate, z, turned rate f z, _, h.rate_eq, h.z_eq, h.exec_osctick f, hre, him, rfl, hlo, hhi⟩

/-! The block over the real numbers (R143, R152) -/

/-- A complex number as the pair of its parts, a state of the real numbers. -/
def parts (w : ℂ) : ℝ × ℝ := (w.re, w.im)

theorem magnitude_parts (w : ℂ) : magnitude id (parts w) = ‖w‖ := (Complex.norm_eq_sqrt_sq_add_sq w).symm

/-- A tick of the real numbers is the complex product with `exp(i*theta)` (R143). -/
theorem reals_turn (z0 : ℝ × ℝ) (rate : Rate) (f : FreqCode) (w : ℂ) :
    (NumberSystem.reals.carrier z0).turn rate f (parts w) = parts (w * Complex.exp (Complex.I * (theta f rate : ℝ))) :=
  Prod.ext (mul_exp_re w _).symm (mul_exp_im w _).symm

/-- After a construction and a row of ticks the real numbers hold the value of the exact carrier, for every `Z0`. -/
theorem reals_after (z0 : Config.StartValue) (rate : Rate) (fs : List FreqCode) :
    (NumberSystem.reals.carrier (realStart z0)).after rate fs = parts (((phaseCarrier z0).after rate fs).value z0) := by
  induction fs using List.reverseRecOn with
  | nil => exact congrArg parts (value_of_num_zero z0 (turnCodes rate)).symm
  | append_singleton fs f ih =>
    rw [Carrier.after_concat, ih, reals_turn, Carrier.after_concat, turn_value z0 f (by rw [phaseCarrier_after])]

theorem reals_sample (z0 : ℝ × ℝ) (w : ℂ) : (NumberSystem.reals.carrier z0).sample (parts w) = rhaReal (w.re * 32767) := rfl

theorem sample_bound_le {p : Config.Params} (hp : p.wf = true) : rhaReal (‖startValue p.z0‖ * 32767) ≤ 32767 :=
  have ⟨_, _, _, hmag, _⟩ := (wf_iff p).mp hp
  rhaReal_le_of_lt (by exact_mod_cast scaled_magnitude_lt hp hmag)

theorem abs_reals_sample_after_le {p : Config.Params} (hp : p.wf = true) (rate : Rate) (fs : List FreqCode) :
    |(NumberSystem.reals.carrier (realStart p.z0)).sample ((NumberSystem.reals.carrier (realStart p.z0)).after rate fs)| ≤
      32767 := by
  rw [reals_after, reals_sample]
  exact (abs_sample_le_of_norm_le (norm_value p.z0 _).le).trans (sample_bound_le hp)

/-- A tick of a `Z` of magnitude `|Z0|` is answered over the real numbers (R143, R148). -/
theorem oscTick_reals {p : Config.Params} (hp : p.wf = true) (f : FreqCode) {b : Block (ℝ × ℝ)} {rate : Rate} {w : ℂ}
    (hv : b.valid = true) (hr : b.rate = some rate) (hz : b.z = some (parts w)) (hw : ‖w‖ = ‖startValue p.z0‖) :
    oscTick p (NumberSystem.reals.carrier (realStart p.z0)) f b =
      finish (samplePayload (BitVec.ofInt 16 (rhaReal ((w * Complex.exp (Complex.I * (theta f rate : ℝ))).re * 32767))))
        (writeZ (parts (w * Complex.exp (Complex.I * (theta f rate : ℝ)))) b) := by
  have hnorm := (norm_mul_exp w (theta f rate)).trans hw
  have hrange := abs_le.mp ((abs_sample_le_of_norm_le hnorm.le).trans (sample_bound_le hp))
  have htick := oscTick_in_range (c := NumberSystem.reals.carrier (realStart p.z0)) hp (f := f) hv hr hz
  rw [reals_turn, reals_sample] at htick
  exact htick ⟨by omega, hrange.2⟩

/-- Settles O46: the real part is at most the magnitude, and the rounding is monotone. -/
theorem sampleBound : Obligations.SampleBound := by
  refine ⟨fun p hp => ⟨sample_bound_le hp, fun rate => magnitude_parts _, fun f b rate z hv hr hz hmag => ?_⟩,
    sample_bound_params, fun f s hs hv => ?_⟩
  · obtain ⟨w, rfl⟩ : ∃ w, z = parts w := ⟨⟨z.1, z.2⟩, rfl⟩
    rw [magnitude_parts] at hmag
    have hnorm := (norm_mul_exp w (theta f rate)).trans hmag
    exact ⟨_, _, abs_sample_le_of_norm_le hnorm.le, (magnitude_parts _).trans hnorm,
      runOn_cons_finish _ _ ((wordOn_encode _ b).trans (oscTick_reals hp f hv hr hz hmag)) (runOn_nil _ _ _)⟩
  · obtain ⟨rate, z, h⟩ := constructed_of_valid hs hv
    have hbound := abs_le.mp (abs_sample_le (turned rate f z))
    exact ⟨_, _, hbound.1, hbound.2, h.exec_osctick f⟩

/-- What `rha` rounds after a construction and a row of ticks, as the rule writes it (R146). -/
theorem outputValue_after (z0 : Config.StartValue) (rate : Rate) (fs : List FreqCode) :
    outputValue z0 ((phaseCarrier z0).after rate fs) =
      32767 * ((startValue z0).re * Real.cos (2 * Real.pi * turnsOf rate fs) -
        (startValue z0).im * Real.sin (2 * Real.pi * turnsOf rate fs)) := by
  rw [outputValue, Phase.re, after_value, mul_exp_re, mul_comm]

/-- Settles O44: a construction and a row of ticks run to the end, and the carrier's value and output are those of the rule. -/
theorem closedForm : Obligations.ClosedForm := by
  simp only [Obligations.ClosedForm, ← outputValue_after, ← after_value]
  refine ⟨fun p rate fs b hp h0 => ?_, fun rate fs s h0 =>
    ⟨_, _, runCommands_construct_ticks h0 fs s, rfl, rfl, rfl, rfl, congrArg (s.responses ++ ·) ?_⟩⟩
  · refine (runOn_construct_ticks hp h0 fs b fun k _ => ?_).trans ?_
    · have hrange := abs_le.mp (abs_reals_sample_after_le hp rate (fs.take (k + 1)))
      omega
    · simp only [Carrier.answers, reals_after]
      rfl
  · simp only [Carrier.answers, sample_after h0]

/-! Every number system that meets the contract (R152) -/

/-- Settles O52: the contract puts every sample in range, so the run ends; and a rounding of a real part within the
magnitude is below 32768. -/
theorem contractKeepsSamplesInRange : Obligations.ContractKeepsSamplesInRange := by
  refine ⟨fun K N n z0 p val rate fs b hp hn h0 => ?_, fun K N n z0 p val rate fs hp hround hmag => ?_⟩
  · have hrange (k : ℕ) (hk : k < fs.length) := abs_le.mp (hn.samples rate (fs.take (k + 1)) h0
      (List.ne_nil_of_length_pos (by rw [List.length_take]; omega)))
    exact ⟨_, _, runOn_construct_ticks hp h0 fs b fun k hk => ⟨by linarith [hrange k hk], (hrange k hk).2⟩, rfl, rfl, rfl, rfl,
      hrange, fun k _ => hn.drift rate (fs.take k) h0⟩
  · set z := (n.carrier z0).after rate fs
    have hre : |val z.1| ≤ magnitude val z := Real.abs_le_sqrt (le_add_of_nonneg_right (sq_nonneg _))
    have hlt := scaled_magnitude_lt hp hmag
    have hv := abs_le.mp hre
    have hs := abs_le.mp (hround z.1)
    have h : |(n.scaleRound z.1 : ℝ)| < 32767 + 1 := by
      rw [abs_lt]
      constructor <;> linarith
    exact Int.lt_add_one_iff.mp (by exact_mod_cast h)

/-! `exec` is the block over the real numbers (R152, R159) -/

/-- The block over the real numbers that a block over the exact carrier stands for. -/
noncomputable def realBlock (b : Block Phase) : Block (ℝ × ℝ) :=
  { valid := b.valid, rate := b.rate, z := b.z.map fun z => parts (z.value Config.params.z0) }

/-- The reply of the block over the real numbers that a reply of the block over the exact carrier stands for. -/
noncomputable def realReply (r : Reply Phase) : Reply (ℝ × ℝ) :=
  { block := realBlock r.block, status := r.status, payload := r.payload }

/-- `NUM` as the real numbers, with the `Z0` that `exec` runs (R8; log entries 5 and 6). -/
noncomputable abbrev realCarrier : Carrier (ℝ × ℝ) := NumberSystem.reals.carrier (realStart Config.params.z0)

theorem oscNew_realBlock {rate : Rate} {b : Block Phase} {r : Reply Phase}
    (h : oscNew Config.params (phaseCarrier Config.params.z0) rate b = .next r) :
    oscNew Config.params realCarrier rate (realBlock b) = .next (realReply r) := by
  by_cases h0 : rate = 0#32
  · subst h0
    rw [oscNew_zero _ params_wf] at h ⊢
    obtain rfl := Host.Outcome.next.inj h
    rfl
  · rw [oscNew_pos _ params_wf h0] at h ⊢
    obtain rfl := Host.Outcome.next.inj h
    have hstart : realCarrier.start rate = parts ((⟨0, turnCodes rate⟩ : Phase).value Config.params.z0) :=
      congrArg parts (value_of_num_zero _ _).symm
    rw [hstart]
    rfl

theorem oscTick_realBlock {f : FreqCode} {s : State} {r : Reply Phase} (hs : s.Inv)
    (h : oscTick Config.params (phaseCarrier Config.params.z0) f s.block = .next r) :
    oscTick Config.params realCarrier f (realBlock s.block) = .next (realReply r) := by
  obtain ⟨hv, -, -⟩ | ⟨rate, z, hc⟩ := legal_constructed_cases hs
  · rw [oscTick_invalid _ params_wf f hv] at h
    obtain rfl := Host.Outcome.next.inj h
    exact oscTick_invalid _ params_wf f hv
  · have hsample : (phaseCarrier Config.params.z0).sample (turned rate f z) =
        rhaReal (outputValue Config.params.z0 (turned rate f z)) :=
      sampleIsExact rate _ hc.rate_ne (turned_den f hc.den_eq)
    have hrange := sample_in_range (turned rate f z)
    rw [oscTick_in_range params_wf hc.valid hc.rate_eq hc.z_eq (by rwa [hsample]), hsample] at h
    obtain rfl := Host.Outcome.next.inj h
    have hz : (realBlock s.block).z = some (parts (z.value Config.params.z0)) := by simp [realBlock, hc.z_eq]
    have htick := oscTick_reals params_wf f (b := realBlock s.block) hc.valid hc.rate_eq hz (norm_value _ z)
    rw [← turn_value _ f hc.den_eq] at htick
    exact htick

/-- One word: the block over the real numbers answers what the block over the exact carrier answers, and goes to the block
that one stands for. -/
theorem wordOn_realBlock {w : Word} {s : State} {r : Reply Phase} (hs : s.Inv)
    (h : wordOn Config.params (phaseCarrier Config.params.z0) w s.block = .next r) :
    wordOn Config.params realCarrier w (realBlock s.block) = .next (realReply r) := by
  cases hd : decode w with
  | error e =>
    rw [wordOn_error _ _ hd] at h ⊢
    obtain rfl := Host.Outcome.next.inj h
    rfl
  | ok i =>
    rw [wordOn_ok _ _ hd] at h ⊢
    cases i with
    | csc => obtain rfl := Host.Outcome.next.inj h; rfl
    | ticks => obtain rfl := Host.Outcome.next.inj h; rfl
    | oscnew => exact oscNew_realBlock h
    | osctick => exact oscTick_realBlock hs h

theorem epsMag_params : epsMag Config.params = 0 := by simp [epsMag, Config.params]

/-- A row of words from a legal state, by induction on the row (log entries 4 to 8). -/
theorem run_realBlock (ws : List Word) {s : State} (hs : s.Inv) :
    ∃ (t : State) (rsps : List Word), runCommands ws s = .next t ∧ t.responses = s.responses ++ rsps ∧
      runOn Config.params realCarrier ws (realBlock s.block) = .next (realBlock t.block, rsps) := by
  induction ws generalizing s with
  | nil => exact ⟨s, [], rfl, (List.append_nil _).symm, rfl⟩
  | cons w ws ih =>
    obtain ⟨t1, ht1⟩ := perform_answers w hs
    have hword := ht1
    rw [perform_eq_wordOn] at hword
    obtain ⟨r, hr, rfl⟩ := deliver_eq_next hword
    obtain ⟨t, rsps, hrun, hrsps, hreal⟩ := ih (perform_keeps_inv hs ht1)
    refine ⟨t, responseWord r.status r.payload :: rsps, ?_, ?_,
      runOn_cons_next _ _ (r := realReply r) (wordOn_realBlock hs hr) hreal⟩
    · rw [runCommands_cons, ht1]
      exact hrun
    · rw [hrsps, respond_responses, withBlock_responses, List.append_assoc, List.singleton_append]

/-- Settles O53: the magnitude is exactly `|Z0|`, and the two blocks run in step. -/
theorem referenceMeetsTheContract : Obligations.ReferenceMeetsTheContract := by
  refine ⟨⟨fun rate fs _ => ?_, fun rate fs _ _ => ?_⟩, epsMag_params, fun ws s hs => run_realBlock ws hs⟩
  · rw [reals_after, magnitude_parts, norm_value, norm_startValue_params, sub_self, abs_zero, epsMag_params]
  · exact abs_reals_sample_after_le params_wf rate fs

end Sys2Proof.Machine
end

section
/-! PROOFS of the statements about the documented host (spec/43_host_sequencer.md R180 to R195). Every part of an encode is built
of parts that can fail a lookup; one lemma per part (`collect_succ_eq_ok_iff` to `frequencies_eq_ok_iff`) says when it is built
and of what, and the lengths (R192), the ranges (R189, R191) and the existence (R183) of an encode are read off these. -/

namespace Sys2Proof.Machine

/-! What the host may rely on (R194) -/

theorem statusWhenValid_ok {w : Word} {i : Instr} (h : decode w = .ok i) (hi : i ≠ .oscnew 0#32) :
    statusWhenValid w = .ok := by
  unfold statusWhenValid
  rw [h]
  exact if_neg hi

theorem statusWhenValid_oscnew_zero {w : Word} (h : decode w = .ok (.oscnew 0#32)) : statusWhenValid w = .badRate := by
  unfold statusWhenValid
  rw [h]
  exact if_pos rfl

theorem statusWhenValid_error {w : Word} {r : Reject} (h : decode w = .error r) : statusWhenValid w = .illegal := by
  unfold statusWhenValid
  rw [h]

/-- The status of the one response while `VALID` is 1 (R224). -/
theorem perform_status_of_valid {w : Word} {s t : State} (hv : s.valid = true) (h : perform w s = .next t) :
    ∃ rsp, t.responses = s.responses ++ [rsp] ∧ statusField rsp = (statusWhenValid w).code := by
  obtain ⟨i, hd, hi⟩ | ⟨r, hd, rfl⟩ := perform_next_cases h
  · obtain ⟨r, g, b, rfl, rfl⟩ | ⟨rate, dn, rfl, rfl⟩ | ⟨rfl, rfl⟩ | ⟨rate, h0, rfl, rfl⟩ | ⟨f, -, hv', -⟩ |
      ⟨f, rate, z, smp, rfl, -, -, -, -, rfl⟩ := exec_next_cases hi
    · exact ⟨_, rfl, by rw [statusWhenValid_ok hd (by simp), statusField_responseWord]⟩
    · exact ⟨_, rfl, by rw [statusWhenValid_ok hd (by simp), statusField_responseWord]⟩
    · exact ⟨_, rfl, by rw [statusWhenValid_oscnew_zero hd, statusField_responseWord]⟩
    · exact ⟨_, rfl, by rw [statusWhenValid_ok hd (by simpa using h0), statusField_responseWord]⟩
    · cases hv.symm.trans hv'
    · exact ⟨_, rfl, by rw [statusWhenValid_ok hd (by simp), statusField_responseWord]⟩
  · exact ⟨_, rfl, by rw [statusWhenValid_error hd, statusField_responseWord]⟩

/-- From a legal state with `VALID` 1 every row of words runs to its end, by induction on the row: no word clears `VALID`. -/
theorem runOn_of_valid (ws : List Word) {s : State} (hs : s.Inv) (hv : s.valid = true) :
    ∃ b rsps, runOn Config.params (phaseCarrier Config.params.z0) ws s.block = .next (b, rsps) ∧
      rsps.map statusField = ws.map fun w => (statusWhenValid w).code := by
  induction ws generalizing s with
  | nil => exact ⟨s.block, [], rfl, rfl⟩
  | cons w ws ih =>
    obtain ⟨t, ht⟩ := perform_answers w hs
    obtain ⟨rsp, hrsp, hfirst⟩ := perform_status_of_valid hv ht
    obtain ⟨b, rsps, hrun, hrest⟩ := ih (perform_keeps_inv hs ht) (perform_keeps_valid_set hv ht)
    rw [perform_eq_wordOn] at ht
    obtain ⟨r, hr, rfl⟩ := deliver_eq_next ht
    obtain rfl : responseWord r.status r.payload = rsp := by simpa using hrsp
    exact ⟨b, _, runOn_cons_next _ _ hr hrun, congrArg₂ List.cons hfirst hrest⟩

/-- After a construction the run is the same whatever the block was before it (R142, R194). -/
theorem runOn_construct {rate : Rate} (h0 : rate ≠ 0#32) (ws : List Word) :
    ∃ b rsps,
      (∀ blk, runOn Config.params (phaseCarrier Config.params.z0) (encode (.oscnew rate) :: ws) blk = .next (b, rsps)) ∧
      rsps.map statusField = Status.ok.code :: ws.map fun w => (statusWhenValid w).code := by
  obtain ⟨b, rsps, hrun, hstatus⟩ := runOn_of_valid ws
    (s := State.reset.withBlock (construct rate ((phaseCarrier Config.params.z0).start rate)))
    (legal_of_constructed rfl rfl rfl h0 rfl (turnCodes_pos h0)) rfl
  have hnew (blk : Block Phase) := (wordOn_encode (.oscnew rate) blk).trans
    (oscNew_pos (phaseCarrier Config.params.z0) params_wf h0 blk)
  exact ⟨b, _, fun blk => runOn_cons_finish _ _ (hnew blk) hrun,
    congrArg₂ List.cons (statusField_responseWord _ _) hstatus⟩

/-- Settles O22: a construction forgets the block before it, and from then on every word is answered. -/
theorem whatTheHostMayRelyOn : Obligations.WhatTheHostMayRelyOn := by
  refine ⟨fun r g b s => ⟨_, exec_csc r g b s⟩, fun rate dn s => ⟨_, exec_ticks rate dn s⟩, fun rate ws s h0 => ?_⟩
  obtain ⟨b, rsps, hrun, hstatus⟩ := runOn_construct h0 ws
  exact ⟨s.afterRun b rsps, rsps, runCommands_of_runOn (hrun s.block), rfl, hstatus, fun s' =>
    ⟨s'.afterRun b rsps, runCommands_of_runOn (hrun s'.block), rfl⟩⟩

/-! The construction of an Image (R182, R184) -/

/-- The pixel of one triple (R182). -/
abbrev convertedPixel (r g b : Byte) : Pixel := { y := (csc r g b).1, u := (csc r g b).2.1, v := (csc r g b).2.2 }

theorem length_lt_three {rgb : List Byte} (h : ∀ r g b rest, rgb = r :: g :: b :: rest → False) : rgb.length < 3 := by
  match rgb, h with
  | [], _ | [_], _ | [_, _], _ => simp
  | r :: g :: b :: rest, h => exact (h r g b rest rfl).elim

theorem length_convertTriples (rgb : List Byte) : (convertTriples rgb).length = rgb.length / 3 := by
  induction rgb using convertTriples.induct with
  | case1 r g b rest ih => simp only [convertTriples, List.length_cons, ih]; omega
  | case2 rgb hno =>
    have := length_lt_three hno
    rw [convertTriples.eq_2 rgb hno, List.length_nil]
    omega

/-- Pixel `p` is that of the bytes `3p`, `3p+1`, `3p+2`. -/
theorem convertTriples_getElem? {rgb : List Byte} {p : ℕ} {r g b : Byte} (hr : rgb[3 * p]? = some r)
    (hg : rgb[3 * p + 1]? = some g) (hb : rgb[3 * p + 2]? = some b) :
    (convertTriples rgb)[p]? = some (convertedPixel r g b) := by
  induction rgb using convertTriples.induct generalizing p with
  | case1 r' g' b' rest ih =>
    cases p with
    | zero => simp_all [convertTriples]
    | succ p => exact ih hr hg hb
  | case2 rgb hno =>
    have := length_lt_three hno
    have := (List.getElem?_eq_some_iff.mp hb).1
    omega

theorem mem_convertTriples {rgb : List Byte} {p : Pixel} (h : p ∈ convertTriples rgb) :
    ∃ r g b, p = convertedPixel r g b := by
  induction rgb using convertTriples.induct with
  | case1 r g b rest ih =>
    obtain rfl | hrest := List.mem_cons.mp h
    · exact ⟨r, g, b, rfl⟩
    · exact ih hrest
  | case2 rgb hno => rw [convertTriples.eq_2 rgb hno] at h; cases h

theorem buildImage_error {rgb : List Byte} (h : rgb.length ≠ 230400) :
    buildImage rgb = .error (.invalidVectorSize rgb.length 230400) := if_neg h

theorem buildImage_ok {rgb : List Byte} (h : rgb.length = 230400) :
    buildImage rgb = .ok { pixels := convertTriples rgb } := if_pos h

/-- An Image that is built holds the converted triples. -/
theorem pixels_of_buildImage {rgb : List Byte} {img : Image} (h : buildImage rgb = .ok img) :
    img.pixels = convertTriples rgb := by
  by_cases hlen : rgb.length = 230400
  · rw [buildImage_ok hlen] at h
    obtain rfl := Except.ok.inj h
    rfl
  · rw [buildImage_error hlen] at h
    cases h

theorem pixelAt_eq_ok_iff {img : Image} {x y : ℕ} {p : Pixel} :
    img.pixelAt x y = .ok p ↔ (x < 320 ∧ y < 240) ∧ img.pixels[y * 320 + x]? = some p := by
  unfold Image.pixelAt imageWidth imageHeight
  split_ifs with h
  · cases img.pixels[y * 320 + x]? <;> simp [h]
  · simp [h]

/-- The lookups of an Image of 76800 pixels (R181, R183). -/
theorem exists_pixelAt {img : Image} (h : img.pixels.length = 76800) {x y : ℕ} (hx : x < 320) (hy : y < 240) :
    ∃ p, img.pixelAt x y = .ok p :=
  ⟨_, pixelAt_eq_ok_iff.mpr ⟨⟨hx, hy⟩, List.getElem?_eq_getElem (by omega)⟩⟩

/-- Settles O57: the checks in their order, and pixel `p` is looked up at its row and column. -/
theorem imageConstruction : Obligations.ImageConstruction := by
  refine ⟨fun rgb => buildImage_error, fun rgb hlen => ⟨_, buildImage_ok hlen, ?_, fun p hp => ?_⟩,
    fun width height rgb h => if_pos h, fun height rgb h => (if_neg (by decide)).trans (if_pos h)⟩
  · rw [length_convertTriples, hlen]
  · have hr := List.getElem?_eq_getElem (show 3 * p < rgb.length by omega)
    have hg := List.getElem?_eq_getElem (show 3 * p + 1 < rgb.length by omega)
    have hb := List.getElem?_eq_getElem (show 3 * p + 2 < rgb.length by omega)
    refine ⟨_, _, _, hr, hg, hb, pixelAt_eq_ok_iff.mpr ⟨by omega, ?_⟩⟩
    rw [Nat.div_add_mod' p 320]
    exact convertTriples_getElem? hr hg hb

/-! When a part of an encode is built, and of what (R188, R189, R191) -/

theorem collect_succ_eq_ok_iff {f : ℕ → Except ImageError FreqCode} {n : ℕ} {fs : List FreqCode} :
    collect f (n + 1) = .ok fs ↔ ∃ gs c, collect f n = .ok gs ∧ f n = .ok c ∧ fs = gs ++ [c] := by
  rw [collect]
  cases collect f n <;> cases f n <;> simp [eq_comm]

theorem collect_length {f : ℕ → Except ImageError FreqCode} {n : ℕ} {fs : List FreqCode} (h : collect f n = .ok fs) :
    fs.length = n := by
  induction n generalizing fs with
  | zero => obtain rfl := Except.ok.inj h; rfl
  | succ n ih =>
    obtain ⟨gs, c, hgs, -, rfl⟩ := collect_succ_eq_ok_iff.mp h
    rw [List.length_append, ih hgs, List.length_singleton]

theorem collect_mem {f : ℕ → Except ImageError FreqCode} {n : ℕ} {fs : List FreqCode} (h : collect f n = .ok fs)
    {c : FreqCode} (hc : c ∈ fs) : ∃ k < n, f k = .ok c := by
  induction n generalizing fs with
  | zero => obtain rfl := Except.ok.inj h; cases hc
  | succ n ih =>
    obtain ⟨gs, c', hgs, hlast, rfl⟩ := collect_succ_eq_ok_iff.mp h
    obtain hmem | hmem := List.mem_append.mp hc
    · obtain ⟨k, hk, hfk⟩ := ih hgs hmem
      exact ⟨k, hk.trans n.lt_succ_self, hfk⟩
    · exact ⟨n, n.lt_succ_self, List.mem_singleton.mp hmem ▸ hlast⟩

theorem exists_collect {f : ℕ → Except ImageError FreqCode} {n : ℕ} (h : ∀ k < n, ∃ c, f k = .ok c) :
    ∃ fs, collect f n = .ok fs := by
  induction n with
  | zero => exact ⟨[], rfl⟩
  | succ n ih =>
    obtain ⟨gs, hgs⟩ := ih fun k hk => h k (hk.trans n.lt_succ_self)
    obtain ⟨c, hc⟩ := h n n.lt_succ_self
    exact ⟨_, collect_succ_eq_ok_iff.mpr ⟨gs, c, hgs, hc, rfl⟩⟩

section Parts

variable {hp : HostParams} {img : Image} {counts : SegmentCounts} {ch : Pixel → Channel} {y sepHz : ℕ} {fs : List FreqCode}

theorem halfPair_eq_ok_iff : halfPair hp img counts y sepHz ch = .ok fs ↔
    ∃ luma chroma, lumaScan hp img counts y = .ok luma ∧ chromaScan hp img counts ch y = .ok chroma ∧
      fs = tone counts .hsync (hzCode 1200) ++ tone counts .sporch (hzCode 1500) ++ luma ++
        tone counts .sep (hzCode sepHz) ++ tone counts .porch (hzCode 1900) ++ chroma := by
  unfold halfPair
  cases lumaScan hp img counts y <;> cases chromaScan hp img counts ch y <;> simp [eq_comm]

theorem rowPair_eq_ok_iff : rowPair hp img counts y = .ok fs ↔
    ∃ a b, halfPair hp img counts y 1500 Pixel.v = .ok a ∧ halfPair hp img counts (y + 1) 2300 Pixel.u = .ok b ∧
      fs = a ++ b := by
  unfold rowPair
  cases halfPair hp img counts y 1500 Pixel.v <;> cases halfPair hp img counts (y + 1) 2300 Pixel.u <;> simp [eq_comm]

theorem rowPairs_succ_eq_ok_iff {n : ℕ} : rowPairs hp img counts (n + 1) = .ok fs ↔
    ∃ a b, rowPairs hp img counts n = .ok a ∧ rowPair hp img counts (2 * n) = .ok b ∧ fs = a ++ b := by
  rw [rowPairs]
  cases rowPairs hp img counts n <;> cases rowPair hp img counts (2 * n) <;> simp [eq_comm]

theorem frequencies_eq_ok_iff {rate : Rate} : frequencies hp img counts rate = .ok fs ↔
    ∃ pairs, rowPairs hp img counts 120 = .ok pairs ∧ fs = header hp rate ++ pairs := by
  unfold frequencies
  rw [show imageHeight / 2 = 120 from rfl]
  cases rowPairs hp img counts 120 <;> simp [eq_comm]

/-- A sample of a luma scan is the code of the Y of a pixel (R189, R190). -/
theorem lumaScan_mem (h : lumaScan hp img counts y = .ok fs) {f : FreqCode} (hf : f ∈ fs) :
    ∃ x p, img.pixelAt x y = .ok p ∧ f = BitVec.ofNat 32 (lumaCode p.y.toNat) := by
  obtain ⟨tick, -, htick⟩ := collect_mem h hf
  split at htick
  · next p hpix => exact ⟨_, p, hpix, (Except.ok.inj htick).symm⟩
  · cases htick

/-- A sample of a chroma scan is the code of the mean of two pixels (R191). -/
theorem chromaScan_mem (h : chromaScan hp img counts ch y = .ok fs) {f : FreqCode} (hf : f ∈ fs) :
    ∃ x0 x1 p q, img.pixelAt x0 y = .ok p ∧ img.pixelAt x1 y = .ok q ∧
      f = BitVec.ofNat 32 (hp.mean.code ((ch p).toNat + (ch q).toNat)) := by
  obtain ⟨tick, -, htick⟩ := collect_mem h hf
  simp only at htick
  split at htick
  · next p q hp0 hp1 => exact ⟨_, _, p, q, hp0, hp1, (Except.ok.inj htick).symm⟩
  · cases htick
  · cases htick

end Parts

/-! The length of an encode (R192) -/

section Lengths

variable {hp : HostParams} {img : Image} {rate : Rate} {ch : Pixel → Channel} {y sepHz : ℕ} {fs : List FreqCode}

theorem length_tone (counts : SegmentCounts) (seg : Segment) (f : ℕ) : (tone counts seg f).length = counts.count seg :=
  List.length_replicate

theorem segmentCounts_count (rate : Rate) (seg : Segment) : (segmentCounts rate).count seg = segmentTicks rate seg := by
  cases seg <;> rfl

theorem lumaScan_length (h : lumaScan hp img (segmentCounts rate) y = .ok fs) : fs.length = segmentTicks rate .yscan :=
  collect_length h

theorem chromaScan_length (h : chromaScan hp img (segmentCounts rate) ch y = .ok fs) :
    fs.length = segmentTicks rate .uvscan :=
  collect_length h

theorem halfPair_length (h : halfPair hp img (segmentCounts rate) y sepHz ch = .ok fs) :
    2 * fs.length = perPairLength rate := by
  obtain ⟨luma, chroma, hluma, hchroma, rfl⟩ := halfPair_eq_ok_iff.mp h
  simp only [List.length_append, length_tone, segmentCounts_count, lumaScan_length hluma, chromaScan_length hchroma,
    perPairLength]
  omega

theorem rowPair_length (h : rowPair hp img (segmentCounts rate) y = .ok fs) : fs.length = perPairLength rate := by
  obtain ⟨a, b, ha, hb, rfl⟩ := rowPair_eq_ok_iff.mp h
  have hla := halfPair_length ha
  have hlb := halfPair_length hb
  rw [List.length_append]
  omega

theorem rowPairs_length {n : ℕ} (h : rowPairs hp img (segmentCounts rate) n = .ok fs) :
    fs.length = n * perPairLength rate := by
  induction n generalizing fs with
  | zero => obtain rfl := Except.ok.inj h; simp
  | succ n ih =>
    obtain ⟨a, b, ha, hb, rfl⟩ := rowPairs_succ_eq_ok_iff.mp h
    rw [List.length_append, ih ha, rowPair_length hb, Nat.succ_mul]

theorem frequencies_length (h : frequencies hp img (segmentCounts rate) rate = .ok fs) :
    fs.length = (header hp rate).length + 120 * perPairLength rate := by
  obtain ⟨pairs, hpairs, rfl⟩ := frequencies_eq_ok_iff.mp h
  rw [List.length_append, rowPairs_length hpairs]

end Lengths

/-! The header (R187) -/

/-- A count of the header is one of the two integers beside the product (log entry 14). -/
theorem abs_fractionCount_sub_lt (hp : HostParams) (part : ℕ) (rate : Rate) {q : ℚ} (hq : 0 ≤ q) :
    |(fractionCount hp part rate q : ℚ) - rate.toNat * q| < 1 := by
  have hx : 0 ≤ (rate.toNat : ℚ) * q := by positivity
  unfold fractionCount
  simp only
  split_ifs
  · rw [Int.ceil_toNat, abs_of_nonneg (sub_nonneg.mpr (Nat.le_ceil _)), sub_lt_iff_lt_add']
    exact Nat.ceil_lt_add_one hx
  · rw [Int.floor_toNat, abs_sub_comm, abs_of_nonneg (sub_nonneg.mpr (Nat.floor_le hx)), sub_lt_iff_lt_add']
    exact Nat.lt_floor_add_one _

/-- A product that is an integer is the count itself (R187). -/
theorem fractionCount_of_eq (hp : HostParams) (part : ℕ) {rate : Rate} {q : ℚ} {n : ℕ} (h : rate.toNat * q = n) :
    fractionCount hp part rate q = n := by
  unfold fractionCount
  simp [h]

/-- The leader at a rate that is a multiple of 10 (R187). -/
theorem fractionCount_leader (hp : HostParams) {rate : Rate} (h : rate.toNat % 10 = 0) :
    10 * fractionCount hp 0 rate (3 / 10) = 3 * rate.toNat := by
  have hrate : rate.toNat = 10 * (rate.toNat / 10) := by omega
  have hprod : (rate.toNat : ℚ) * (3 / 10) = (3 * (rate.toNat / 10) : ℕ) := by
    rw [hrate, Nat.mul_div_cancel_left _ (by norm_num)]
    push_cast
    ring
  rw [fractionCount_of_eq hp 0 hprod]
  omega

theorem hertz_code (hz : HeaderHz) : BitVec.ofNat 32 (hzCode hz.hertz) = 969000#32 ∨
    BitVec.ofNat 32 (hzCode hz.hertz) = 612000#32 ∨ BitVec.ofNat 32 (hzCode hz.hertz) = 663000#32 ∨
    BitVec.ofNat 32 (hzCode hz.hertz) = 561000#32 := by
  cases hz <;> decide

/-- Settles O58: the length is the sum of the parts' lengths, and the header is read off its definition. -/
theorem encodeLength : Obligations.EncodeLength := by
  refine ⟨fun hp img rate fs h => ⟨frequencies_length h, rfl⟩, fun hp rate => ⟨_, _, rfl, rfl, fun f hf => ?_,
    abs_fractionCount_sub_lt hp 0 rate (by norm_num), fractionCount_leader hp⟩, by decide⟩
  obtain ⟨t, -, ht⟩ := List.mem_flatMap.mp hf
  rw [List.eq_of_mem_replicate ht]
  exact hertz_code t.1.tone

/-! The bounds of the sequencer (R183, R189 to R191) -/

/-- A bound on the exact quotient bounds the rounded one: what is rounded up has a remainder (R189). -/
theorem roundDiv_le (tieUp : ℕ → Bool) {a b k : ℕ} (hb : 0 < b) (h : a ≤ b * k) : roundDiv tieUp a b ≤ k := by
  have hle : a / b ≤ k := Nat.div_le_of_le_mul h
  have hlt (hr : b ≤ 2 * (a % b)) : a / b < k := by
    rw [Nat.div_lt_iff_lt_mul hb, Nat.mul_comm]
    refine h.lt_of_ne fun he => ?_
    rw [he, Nat.mul_mod_right] at hr
    omega
  unfold roundDiv
  simp only
  split_ifs <;> omega

section Existence

variable {hp : HostParams} {img : Image} {counts : SegmentCounts} {y sepHz : ℕ} (himg : img.pixels.length = 76800)
include himg

/-- The column of a luma scan is at most 319, wherever `tick` starts and whichever way a tie goes (R189). -/
theorem exists_lumaScan (hy : y < 240) : ∃ fs, lumaScan hp img counts y = .ok fs := by
  refine exists_collect fun tick htick => ?_
  have horigin := hp.tickOrigin.isLt
  have hcol : roundDiv hp.tieUp ((imageWidth - 1) * (hp.tickOrigin.val + tick)) counts.yTicks ≤ 319 := by
    refine roundDiv_le _ (by omega) ?_
    rw [Nat.mul_comm counts.yTicks]
    exact Nat.mul_le_mul_left 319 (by omega)
  obtain ⟨p, hpix⟩ := exists_pixelAt himg (Nat.lt_succ_of_le hcol) hy
  rw [hpix]
  exact ⟨_, rfl⟩

variable (hcol : ∀ tick n, hp.chromaColumn tick n < 320)
include hcol

theorem exists_chromaScan (ch : Pixel → Channel) (hy : y < 240) : ∃ fs, chromaScan hp img counts ch y = .ok fs := by
  refine exists_collect fun tick _ => ?_
  obtain ⟨p, hp0⟩ := exists_pixelAt himg (hcol (hp.tickOrigin.val + tick) counts.uvTicks) hy
  obtain ⟨q, hp1⟩ := exists_pixelAt himg (x := min (hp.chromaColumn (hp.tickOrigin.val + tick) counts.uvTicks + 1) 319)
    (by omega) hy
  simp only [hp0, imageWidth, Nat.reduceSub, hp1]
  exact ⟨_, rfl⟩

theorem exists_halfPair (ch : Pixel → Channel) (hy : y < 240) : ∃ fs, halfPair hp img counts y sepHz ch = .ok fs := by
  obtain ⟨luma, hluma⟩ := exists_lumaScan (hp := hp) (counts := counts) himg hy
  obtain ⟨chroma, hchroma⟩ := exists_chromaScan (counts := counts) himg hcol ch hy
  exact ⟨_, halfPair_eq_ok_iff.mpr ⟨luma, chroma, hluma, hchroma, rfl⟩⟩

theorem exists_rowPairs {n : ℕ} (hn : n ≤ 120) : ∃ fs, rowPairs hp img counts n = .ok fs := by
  induction n with
  | zero => exact ⟨[], rfl⟩
  | succ n ih =>
    obtain ⟨fs, hfs⟩ := ih (by omega)
    obtain ⟨a, ha⟩ := exists_halfPair himg hcol Pixel.v (show 2 * n < 240 by omega)
    obtain ⟨b, hb⟩ := exists_halfPair himg hcol Pixel.u (show 2 * n + 1 < 240 by omega)
    exact ⟨_, rowPairs_succ_eq_ok_iff.mpr ⟨fs, _, hfs, rowPair_eq_ok_iff.mpr ⟨a, b, ha, hb, rfl⟩, rfl⟩⟩

theorem exists_frequencies (rate : Rate) : ∃ fs, frequencies hp img counts rate = .ok fs := by
  obtain ⟨pairs, hpairs⟩ := exists_rowPairs himg hcol (counts := counts) le_rfl
  exact ⟨_, frequencies_eq_ok_iff.mpr ⟨pairs, hpairs, rfl⟩⟩

end Existence

theorem code_even (mean : ChromaMean) (m : ℕ) : mean.code (2 * m) = lumaCode m := by
  cases mean with
  | exact => simp only [ChromaMean.code, avgCode, lumaCode]; omega
  | integer roundUp => rw [ChromaMean.code, if_neg (by omega), Nat.mul_div_cancel_left m two_pos]

theorem code_odd (mean : ChromaMean) (m : ℕ) : mean.code (2 * m + 1) = avgCode (2 * m + 1) ∨
    mean.code (2 * m + 1) = lumaCode m ∨ mean.code (2 * m + 1) = lumaCode (m + 1) := by
  have hhalf : (2 * m + 1) / 2 = m := by omega
  cases mean with
  | exact => exact .inl rfl
  | integer roundUp =>
    rw [ChromaMean.code, hhalf]
    split_ifs
    · exact .inr (.inr rfl)
    · exact .inr (.inl rfl)

/-- Whichever mean is taken, it lies between the bounds of the two values (R191). -/
theorem code_mem_range (mean : ChromaMean) {s lo hi : ℕ} (h1 : 2 * lo ≤ s) (h2 : s ≤ 2 * hi) :
    lumaCode lo ≤ mean.code s ∧ mean.code s ≤ lumaCode hi := by
  obtain ⟨m, rfl | rfl⟩ := Nat.even_or_odd' s
  · rw [code_even]
    simp only [lumaCode]
    omega
  · have hodd := code_odd mean m
    simp only [avgCode, lumaCode] at hodd ⊢
    omega

/-- The channels of a built Image lie in the ranges of R104. -/
theorem channels_of_buildImage {rgb : List Byte} {img : Image} (h : buildImage rgb = .ok img) {x y : ℕ} {p : Pixel}
    (hpix : img.pixelAt x y = .ok p) : (16 ≤ p.y.toNat ∧ p.y.toNat ≤ 234) ∧ (16 ≤ p.u.toNat ∧ p.u.toNat ≤ 239) ∧
      16 ≤ p.v.toNat ∧ p.v.toNat ≤ 239 := by
  have hmem := List.mem_of_getElem? (pixelAt_eq_ok_iff.mp hpix).2
  rw [pixels_of_buildImage h] at hmem
  obtain ⟨r, g, b, rfl⟩ := mem_convertTriples hmem
  exact ⟨(csc_y r g b).1, (csc_u r g b).1, (csc_v r g b).1⟩

theorem toNat_ofNat_mem_range {n lo hi : ℕ} (h : lo ≤ n ∧ n ≤ hi) (hhi : hi < 2 ^ 32) :
    lo ≤ (BitVec.ofNat 32 n).toNat ∧ (BitVec.ofNat 32 n).toNat ≤ hi := by
  rwa [BitVec.toNat_ofNat, Nat.mod_eq_of_lt (h.2.trans_lt hhi)]

theorem lumaScan_range {hp : HostParams} {rgb : List Byte} {img : Image} {counts : SegmentCounts} {y : ℕ} {fs : List FreqCode}
    (hb : buildImage rgb = .ok img) (h : lumaScan hp img counts y = .ok fs) :
    ∀ f ∈ fs, 790600 ≤ f.toNat ∧ f.toNat ≤ 1139400 := by
  intro f hf
  obtain ⟨x, p, hpix, rfl⟩ := lumaScan_mem h hf
  obtain ⟨hy, -⟩ := channels_of_buildImage hb hpix
  exact toNat_ofNat_mem_range (by unfold lumaCode; omega) (by norm_num)

/-- A chroma scan of a channel that lies in the range of R104. -/
theorem chromaScan_range {hp : HostParams} {img : Image} {counts : SegmentCounts} {ch : Pixel → Channel} {y : ℕ}
    {fs : List FreqCode} (hch : ∀ {x p}, img.pixelAt x y = .ok p → 16 ≤ (ch p).toNat ∧ (ch p).toNat ≤ 239)
    (h : chromaScan hp img counts ch y = .ok fs) : ∀ f ∈ fs, 790600 ≤ f.toNat ∧ f.toNat ≤ 1147400 := by
  intro f hf
  obtain ⟨x0, x1, p, q, hp0, hp1, rfl⟩ := chromaScan_mem h hf
  have hp0Range := hch hp0
  have hp1Range := hch hp1
  exact toNat_ofNat_mem_range (code_mem_range (lo := 16) (hi := 239) _ (by omega) (by omega)) (by norm_num)

/-- Settles O59: the columns stay below 320, the channels in the ranges of R104, and a mean between the two values. -/
theorem sequencerStaysInBounds : Obligations.SequencerStaysInBounds := by
  refine ⟨fun hp img rate himg hcol => exists_frequencies himg hcol rate, fun hp rgb img counts y fs hb =>
    ⟨lumaScan_range hb, chromaScan_range fun h => ?v, chromaScan_range fun h => ?u⟩,
    fun mean m => ⟨code_even mean m, code_odd mean m⟩⟩
  case v => exact (channels_of_buildImage hb h).2.2
  case u => exact (channels_of_buildImage hb h).2.1

end Sys2Proof.Machine
end

section
/-! PROOFS of the statements about the errors (spec/60_exceptions.md): the order of the checks (R224), the effect of a command
that errs (R222, R226), and the faults of the model (R233). The first two turn on what a word that answers can have done:
`exec_status` with `checkedStatus_of_ok` for its status, `perform_ok_or_raised` for its effect. -/

namespace Sys2Proof.Machine

/-! The order of the checks (R224) -/

/-- The status a decoded command is answered with: the two checks that come after the opcode and the `zero` field. -/
def commandStatus (i : Instr) (s : State) : Status :=
  match i with
  | .csc _ _ _ | .ticks _ _ => .ok
  | .oscnew rate => if rate = 0#32 then .badRate else .ok
  | .osctick _ => if s.valid = false then .uninit else .ok

/-- A word that decodes has passed the checks of the opcode and of the `zero` field. -/
theorem checkedStatus_of_ok {w : Word} {i : Instr} (h : decode w = .ok i) (s : State) :
    checkedStatus w s = commandStatus i s := by
  unfold checkedStatus
  obtain ⟨hop, hz, hd⟩ | ⟨hop, hz, hd⟩ | ⟨hop, hz, hd⟩ | ⟨hop, hz, hd⟩ | ⟨-, hd⟩ | ⟨-, -, -, -, hd⟩ := decode_cases w <;>
    rw [hd] at h
  · obtain rfl := Except.ok.inj h; simp [hop, hz, commandStatus]
  · obtain rfl := Except.ok.inj h; simp [hop, hz, commandStatus]
  · obtain rfl := Except.ok.inj h; simp [hop, hz, commandStatus]
  · obtain rfl := Except.ok.inj h; simp [hop, hz, commandStatus]
  · cases h
  · cases h

/-- A word that does not decode has failed one of them (R68). -/
theorem checkedStatus_of_error {w : Word} {r : Reject} (h : decode w = .error r) (s : State) :
    checkedStatus w s = .illegal := by
  unfold checkedStatus
  obtain hop | hop | ⟨hop, hz⟩ | ⟨hop, hz⟩ | ⟨hop, hz⟩ | ⟨hop, hz⟩ := (decode_error_iff w).mp ⟨r, h⟩
  · exact if_pos (.inl (by omega))
  · exact if_pos (.inr hop)
  · simp [hop, hz]
  · simp [hop, hz]
  · simp [hop, hz]
  · simp [hop, hz]

theorem exec_status {i : Instr} {s t : State} (h : exec i s = .next t) :
    ∃ payload, t.responses = s.responses ++ [responseWord (commandStatus i s) payload] := by
  obtain ⟨r, g, b, rfl, rfl⟩ | ⟨rate, dn, rfl, rfl⟩ | ⟨rfl, rfl⟩ | ⟨rate, h0, rfl, rfl⟩ | ⟨f, rfl, hv, rfl⟩ |
    ⟨f, rate, z, smp, rfl, hv, -, -, -, rfl⟩ := exec_next_cases h
  · exact ⟨_, rfl⟩
  · exact ⟨_, rfl⟩
  · exact ⟨_, rfl⟩
  · exact ⟨0#48, by simp [commandStatus, h0]⟩
  · exact ⟨0#48, by simp [commandStatus, hv]⟩
  · exact ⟨samplePayload smp, by simp [commandStatus, hv]⟩

/-- Settles O7: a legal state answers every word, and the decoder and the command make the checks in the order of the rule. -/
theorem firstFailingCheckDecides : Obligations.FirstFailingCheckDecides := by
  intro w s hs
  obtain ⟨t, ht⟩ := perform_answers w hs
  obtain ⟨i, hd, hi⟩ | ⟨r, hd, rfl⟩ := perform_next_cases ht
  · obtain ⟨payload, hrsp⟩ := exec_status hi
    exact ⟨payload, t, ht, by rw [checkedStatus_of_ok hd, hrsp]⟩
  · exact ⟨0#48, _, ht, by rw [checkedStatus_of_error hd, respond_responses]⟩

/-! A command that errs (R222, R226) -/

/-- A command word that answers has ended `OK`, or has raised an error and done nothing else. -/
theorem perform_ok_or_raised {w : Word} {s t : State} (h : perform w s = .next t) :
    (∃ payload, t.responses = s.responses ++ [responseWord .ok payload]) ∨ ∃ e : Error, t = respond e.status 0#48 s := by
  obtain ⟨i, -, hi⟩ | ⟨r, -, rfl⟩ := perform_next_cases h
  · obtain ⟨r, g, b, -, rfl⟩ | ⟨rate, dn, -, rfl⟩ | ⟨-, rfl⟩ | ⟨rate, -, -, rfl⟩ | ⟨f, -, -, rfl⟩ |
      ⟨f, rate, z, smp, -, -, -, -, -, rfl⟩ := exec_next_cases hi
    · exact .inl ⟨_, rfl⟩
    · exact .inl ⟨_, rfl⟩
    · exact .inr ⟨.badRate, rfl⟩
    · exact .inl ⟨_, rfl⟩
    · exact .inr ⟨.uninit, rfl⟩
    · exact .inl ⟨_, rfl⟩
  · exact .inr ⟨.illegal, rfl⟩

/-- Settles O19: the word that answers without `OK` has raised an error, which adds the response and nothing else. -/
theorem erringCommandHasNoEffect : Obligations.ErringCommandHasNoEffect := by
  intro w s t h
  obtain ⟨payload, hrsp⟩ | ⟨e, rfl⟩ := perform_ok_or_raised h
  · exact ⟨_, hrsp, fun herr => absurd (statusField_responseWord .ok payload) herr⟩
  · exact ⟨_, rfl, fun _ => ⟨rfl, rfl, e, rfl⟩⟩

/-! The faults of the model (R233) -/

/-- A tick whose sample is out of range faults, over every carrier (R150). -/
theorem oscTick_out_of_range {Z : Type} {p : Config.Params} {c : Carrier Z} {f : FreqCode} {b : Block Z} {rate : Rate} {z : Z}
    (hp : p.wf = true) (hv : b.valid = true) (hr : b.rate = some rate) (hz : b.z = some z)
    (h : ¬ (-32768 ≤ c.sample (c.turn rate f z) ∧ c.sample (c.turn rate f z) ≤ 32767)) :
    oscTick p c f b = .fault .sampleOutOfRange := by
  rw [oscTick_valid c hp f hv hr hz, toI16_none h]

/-- The starting value of an admissible configuration is not 0, and rounds into the range of a sample (R141, R152). -/
theorem startValue_of_wf {p : Config.Params} (hp : p.wf = true) :
    startValue p.z0 ≠ 0 ∧ ‖startValue p.z0‖ * 32767 < 32767.5 := by
  obtain ⟨-, -, h0, hmag, -⟩ := (wf_iff p).mp hp
  exact ⟨h0, (scaled_magnitude_lt hp hmag).trans_eq (by norm_num)⟩

/-- Settles O23, clause by clause. -/
theorem modelLevelFaults : Obligations.ModelLevelFaults :=
  ⟨fun f _ => exec_osctick_no_value f, fun _ _ _ _ _ _ _ => oscTick_out_of_range,
    fun _ _ c rate f b hp => ⟨oscNew_unconfigured c hp rate b, oscTick_unconfigured c hp f b⟩, fun _ => startValue_of_wf⟩

end Sys2Proof.Machine
end

section
/-! PROOFS of the statements about reset, hazards and whole runs (spec/70_reset_and_hazards.md R250 to R260). A run is taken
apart at its words (`runCommands_cons_eq_next_iff`), two ticks commute because codes add (R146), and an encode is put together
from runs of the block: the pixels, the construction, the ticks (R254). -/

namespace Sys2Proof.Machine

/-! Reset (R250, R252) and a step from a legal state (R259) -/

/-- Settles O15. -/
theorem resetValues : Obligations.ResetValues := ⟨rfl, rfl, rfl⟩

/-- Settles O16: the step takes the reset event, which clears the block and leaves the boundary. -/
theorem resetEventEffect : Obligations.ResetEventEffect :=
  fun _ _ hin => ⟨_, step_reset hin, resetEvent_valid _, resetEvent_rate _, resetEvent_z _, resetEvent_responses _,
    resetEvent_inputs _⟩

/-- Settles O13, by what is presented first: nothing, a command word, the reset event. -/
theorem everyStepAnswers : Obligations.EveryStepAnswers := by
  intro s hs
  cases hin : s.inputs with
  | nil => exact ⟨s, step_idle hin⟩
  | cons i rest =>
    cases i with
    | command w =>
      rw [step_command hin]
      exact perform_answers w (s := { s with inputs := rest }) hs
    | reset => exact ⟨_, step_reset hin⟩

/-! A run, taken apart (R48, R260) -/

/-- A run ends when its first word is answered and the rest runs on from there to the same end. -/
theorem runCommands_cons_eq_next_iff {w : Word} {ws : List Word} {s t : State} :
    runCommands (w :: ws) s = .next t ↔ ∃ s', perform w s = .next s' ∧ runCommands ws s' = .next t := by
  rw [runCommands_cons]
  cases perform w s <;> simp

/-- A run of two rows of words ends when the first does and the second runs on from there to the same end. -/
theorem runCommands_append_eq_next_iff {ws vs : List Word} {s t : State} :
    runCommands (ws ++ vs) s = .next t ↔ ∃ u, runCommands ws s = .next u ∧ runCommands vs u = .next t := by
  induction ws generalizing s with
  | nil => simp [runCommands]
  | cons w ws ih =>
    simp only [List.cons_append, runCommands_cons_eq_next_iff, ih]
    constructor
    · rintro ⟨s', hw, u, hws, hvs⟩
      exact ⟨u, ⟨s', hw, hws⟩, hvs⟩
    · rintro ⟨u, ⟨s', hw, hws⟩, hvs⟩
      exact ⟨s', hw, u, hws, hvs⟩

/-- A run that ends has answered every word once (R70). -/
theorem runCommands_length {ws : List Word} {s t : State} (h : runCommands ws s = .next t) :
    t.responses.length = s.responses.length + ws.length := by
  induction ws generalizing s with
  | nil => rw [← Host.Outcome.next.inj h]; rfl
  | cons w ws ih =>
    obtain ⟨s', hw, hws⟩ := runCommands_cons_eq_next_iff.mp h
    obtain ⟨st, payload, hrsp, -⟩ := perform_response hw
    rw [ih hws, hrsp, List.length_append, List.length_singleton, List.length_cons]
    omega

/-- Settles O10: a run is its first words and then the rest, and each of the first words is answered once. -/
theorem runPrefixIsARun : Obligations.RunPrefixIsARun := by
  intro ws vs s t h
  obtain ⟨u, hws, hvs⟩ := runCommands_append_eq_next_iff.mp h
  exact ⟨u, hws, hvs, runCommands_length hws⟩

/-! Two ticks (R256) -/

/-- The block of a constructed oscillator is its rate and its phase. -/
theorem Constructed.block_eq {s : State} {rate : Rate} {z : Phase} (h : Constructed s rate z) : s.block = construct rate z := by
  unfold State.block
  rw [h.valid, h.rate_eq, h.z_eq]
  rfl

/-- The codes of two ticks add (R146). -/
theorem turned_turned (f g : FreqCode) {rate : Rate} {z : Phase} (h : z.den = turnCodes rate) :
    turned rate g (turned rate f z) = { num := (z.num + f.toNat + g.toNat) % turnCodes rate, den := turnCodes rate } := by
  rw [turned, phaseCarrier_turn _ g (turned_den f h), turned, phaseCarrier_turn _ f h, Nat.mod_add_mod]

theorem turned_comm (f g : FreqCode) {rate : Rate} {z : Phase} (h : z.den = turnCodes rate) :
    turned rate g (turned rate f z) = turned rate f (turned rate g z) := by
  rw [turned_turned f g h, turned_turned g f h, Nat.add_right_comm]

/-- A run of two ticks is one `OSCTICK` and then the other. -/
theorem two_ticks_eq_next {f g : FreqCode} {s t : State}
    (h : runCommands [encode (.osctick f), encode (.osctick g)] s = .next t) :
    ∃ s', exec (.osctick f) s = .next s' ∧ exec (.osctick g) s' = .next t := by
  obtain ⟨s', hf, hrest⟩ := runCommands_cons_eq_next_iff.mp h
  obtain ⟨t', hg, hend⟩ := runCommands_cons_eq_next_iff.mp hrest
  obtain rfl := Host.Outcome.next.inj hend
  exact ⟨s', (perform_ok (decode_encode _) s).symm.trans hf, (perform_ok (decode_encode _) s').symm.trans hg⟩

/-- A tick before the construction leaves the block (R145). -/
theorem exec_osctick_invalid_block {f : FreqCode} {s t : State} (hv : s.valid = false) (h : exec (.osctick f) s = .next t) :
    t.block = s.block := by
  rw [exec_osctick_invalid f hv] at h
  obtain rfl := Host.Outcome.next.inj h
  rfl

/-- The block after two ticks: as it was before the construction, and turned by both codes after it. -/
theorem two_ticks_block {f g : FreqCode} {s t : State}
    (h : runCommands [encode (.osctick f), encode (.osctick g)] s = .next t) :
    (s.valid = false → t.block = s.block) ∧
    ∀ rate z, Constructed s rate z → t.block = construct rate (turned rate g (turned rate f z)) := by
  obtain ⟨s', hf, hg⟩ := two_ticks_eq_next h
  refine ⟨fun hv => ?_, fun rate z hc => ((hc.tick_constructed f hf).tick_constructed g hg).block_eq⟩
  have hblock := exec_osctick_invalid_block hv hf
  exact (exec_osctick_invalid_block ((congrArg Block.valid hblock).trans hv) hg).trans hblock

/-- Settles O51: before the construction no tick writes the block, after it the two turns commute. -/
theorem swappedTicksLeaveTheSameState : Obligations.SwappedTicksLeaveTheSameState := by
  intro f g s t t' hs h h'
  obtain ⟨hv, -⟩ | ⟨rate, z, hc⟩ := legal_constructed_cases hs
  · exact ((two_ticks_block h).1 hv).trans ((two_ticks_block h').1 hv).symm
  · rw [(two_ticks_block h).2 rate z hc, (two_ticks_block h').2 rate z hc, turned_comm f g hc.den_eq]

/-! The runs of the block an encode is put together from (R254) -/

/-- Every response of a row is `OK`. -/
def AllOk (rsps : List Word) : Prop := ∀ rsp ∈ rsps, statusField rsp = Status.ok.code

theorem allOk_append {rsps rsps' : List Word} (h : AllOk rsps) (h' : AllOk rsps') : AllOk (rsps ++ rsps') :=
  List.forall_mem_append.mpr ⟨h, h'⟩

theorem allOk_cons {rsp : Word} {rsps : List Word} : AllOk (rsp :: rsps) ↔ statusField rsp = Status.ok.code ∧ AllOk rsps :=
  List.forall_mem_cons

/-- A row of responses built with status `OK`. -/
theorem allOk_map {α : Type} (payload : α → Payload) (l : List α) : AllOk (l.map fun a => responseWord .ok (payload a)) :=
  List.forall_mem_map.mpr fun _ _ => statusField_responseWord .ok _

section Block

variable {Z : Type} {p : Config.Params} {c : Carrier Z}

/-- A run goes on from the block another left. -/
theorem runOn_append {ws vs : List Word} {b b' b'' : Block Z} {rsps rsps' : List Word}
    (h : runOn p c ws b = .next (b', rsps)) (h' : runOn p c vs b' = .next (b'', rsps')) :
    runOn p c (ws ++ vs) b = .next (b'', rsps ++ rsps') := by
  induction ws generalizing b rsps with
  | nil =>
    obtain ⟨rfl, rfl⟩ := Prod.mk.inj (Host.Outcome.next.inj h)
    exact h'
  | cons w ws ih =>
    obtain ⟨r, rest, hw, hws, rfl⟩ := runOn_cons_eq_next h
    exact runOn_cons_next p c hw (ih hws)

/-- The pixels of an encode are answered `OK` and leave the block (R100, R194). -/
theorem runOn_cscCommands (rgb : List Byte) (b : Block Z) :
    ∃ rsps, runOn p c ((cscCommands rgb).map encode) b = .next (b, rsps) ∧ AllOk rsps := by
  induction rgb using cscCommands.induct with
  | case1 red green blue rest ih =>
    obtain ⟨rsps, hrun, hok⟩ := ih
    exact ⟨_, runOn_cons_finish p c (wordOn_encode (.csc red green blue) b) hrun,
      allOk_cons.mpr ⟨statusField_responseWord _ _, hok⟩⟩
  | case2 rgb hno =>
    rw [cscCommands.eq_2 rgb hno]
    exact ⟨[], rfl, by simp [AllOk]⟩

/-- A row of `TICKS` of named segments is answered with the counts and leaves the block (R120, R124). -/
theorem runOn_segmentTicks (rate : Rate) (segs : List Segment) (b : Block Z) :
    runOn p c (segs.map fun seg => encode (.ticks rate (segmentCode seg))) b =
      .next (b, segs.map fun seg => responseWord .ok (countPayload (segmentTicks rate seg))) := by
  induction segs with
  | nil => rfl
  | cons seg segs ih => exact runOn_cons_finish p c (wordOn_encode (.ticks rate (segmentCode seg)) b) ih

/-- The segments whose counts an Encoder keeps, in the order it asks for them (R185). -/
def countedSegments : List Segment := [.hsync, .sporch, .porch, .sep, .yscan, .uvscan]

/-- The responses of an Encoder's construction: `OK`, and then the six counts (R185). -/
def constructionAnswers (rate : Rate) : List Word :=
  responseWord .ok 0#48 :: countedSegments.map fun seg => responseWord .ok (countPayload (segmentTicks rate seg))

theorem allOk_constructionAnswers (rate : Rate) : AllOk (constructionAnswers rate) :=
  allOk_cons.mpr ⟨statusField_responseWord _ _, allOk_map _ _⟩

/-- The construction of an Encoder is answered with the counts and leaves a constructed oscillator (R140, R185). -/
theorem runOn_constructionCommands (hp : p.wf = true) {rate : Rate} (h0 : rate ≠ 0#32) (b : Block Z) :
    runOn p c ((constructionCommands rate).map encode) b =
      .next (construct rate (c.start rate), constructionAnswers rate) :=
  runOn_cons_finish p c ((wordOn_encode (.oscnew rate) b).trans (oscNew_pos c hp h0 b))
    (runOn_segmentTicks rate countedSegments (construct rate (c.start rate)))

end Block

/-- The sample after the first `n` ticks of a row: the rounding over the real numbers (R146, R150). -/
noncomputable def sampleAfter (rate : Rate) (fs : List FreqCode) (n : ℕ) : Sample :=
  BitVec.ofInt 16 (rhaReal (outputValue Config.params.z0 ((phaseCarrier Config.params.z0).after rate (fs.take n))))

/-- The responses of a row of ticks after a construction. -/
noncomputable def tickAnswers (rate : Rate) (fs : List FreqCode) : List Word :=
  (List.range fs.length).map fun n => responseWord .ok (samplePayload (sampleAfter rate fs (n + 1)))

/-- A row of ticks after a construction is answered with its samples, which are in range (R146, R148). -/
theorem runOn_osctickCommands {rate : Rate} (h0 : rate ≠ 0#32) (fs : List FreqCode) :
    runOn Config.params (phaseCarrier Config.params.z0) ((fs.map Instr.osctick).map encode)
        (construct rate ((phaseCarrier Config.params.z0).start rate)) =
      .next (construct rate ((phaseCarrier Config.params.z0).after rate fs), tickAnswers rate fs) := by
  have hrun := runOn_ticks (c := phaseCarrier Config.params.z0) (rate := rate) params_wf fs [] fun k _ => by
    rw [List.nil_append, sample_after h0]
    exact sample_in_range _
  simp only [List.nil_append, sample_after h0] at hrun
  rw [List.map_map]
  exact hrun

/-! What the host gets from a run that is answered `OK` throughout (R186, R194) -/

/-- The host gets the responses of a run of the block that are all `OK`, by induction on the commands. -/
theorem askAll_of_runOn {is : List Instr} {s : State} {b : Block Phase} {rsps : List Word}
    (h : runOn Config.params (phaseCarrier Config.params.z0) (is.map encode) s.block = .next (b, rsps)) (hok : AllOk rsps) :
    askAll is s = .ok (rsps, s.afterRun b rsps) := by
  induction is generalizing s rsps with
  | nil =>
    obtain ⟨rfl, rfl⟩ := Prod.mk.inj (Host.Outcome.next.inj h)
    simp [State.afterRun]
  | cons i is ih =>
    obtain ⟨r, rest, hw, hrun, rfl⟩ := runOn_cons_eq_next h
    obtain ⟨hfirst, hrest⟩ := allOk_cons.mp hok
    have hexec : exec i s = .next (respond r.status r.payload (s.withBlock r.block)) := by
      rw [exec_eq_commandOn, ← wordOn_encode, hw, deliver_next]
    refine askAll_cons_ok (ask_ok (decode_encode i) hexec rfl hfirst)
      ((ih (s := respond r.status r.payload (s.withBlock r.block)) hrun hrest).trans ?_)
    simp [State.afterRun, State.withBlock]

/-- An Encoder with the counts that `TICKS` gives is made with every positive rate, from every state of the block (R185). -/
theorem encoder_new_ok (img : Image) {rate : Rate} (h0 : rate ≠ 0#32) (s : State) :
    Encoder.new img rate s = .ok ({ image := img, rate := rate, counts := segmentCounts rate, consumed := false },
      s.afterRun (construct rate ((phaseCarrier Config.params.z0).start rate)) (constructionAnswers rate)) := by
  have hcount (seg : Segment) : (payloadField (responseWord .ok (countPayload (segmentTicks rate seg)))).toNat =
      segmentTicks rate seg := payloadLayouts.2.1 rate (segmentCode seg)
  have hask := askAll_of_runOn (runOn_constructionCommands params_wf h0 s.block) (allOk_constructionAnswers rate)
  rw [Encoder.new, if_neg h0, hask]
  simp only [constructionAnswers, countedSegments, List.map_cons, List.map_nil, hcount]
  rfl

/-- The sequence of an Encoder that has not been taken is the frequencies of its encode, and cannot be taken again (R185). -/
theorem encoder_encode_ok {hp : HostParams} {enc : Encoder} {fs : List FreqCode} (hc : enc.consumed = false)
    (h : frequencies hp enc.image enc.counts enc.rate = .ok fs) :
    enc.encode hp = .ok ({ remaining := fs }, { enc with consumed := true }) := by
  simp [Encoder.encode, hc, h]

theorem encoder_encode_consumed {hp : HostParams} {enc : Encoder} (hc : enc.consumed = true) :
    enc.encode hp = .error .consumed := if_pos hc

/-- The samples of a sequence taken after the construction (R146, R186). -/
theorem waveform_samples_ok {rate : Rate} (h0 : rate ≠ 0#32) (fs : List FreqCode) {s : State}
    (hs : s.block = construct rate ((phaseCarrier Config.params.z0).start rate)) :
    ∃ u, Waveform.samples { remaining := fs } s = .ok
      ((List.range fs.length).map fun n => sampleAfter rate fs (n + 1), u) := by
  have hask := askAll_of_runOn (s := s) (hs ▸ runOn_osctickCommands h0 fs) (allOk_map _ _)
  have hread (smp : Sample) : sampleField (responseWord .ok (samplePayload smp)) = smp := (payloadLayouts.2.2 smp).2.2
  rw [Waveform.samples, hask]
  simp only [List.map_map, Function.comp_def, hread]
  exact ⟨_, rfl⟩

/-! The commands of an encode (R193, R254) -/

/-- The host that issues the commands of an Image has a positive rate, and issues the construction and then the ticks. -/
theorem imageCommands_eq_ok {hp : HostParams} {img : Image} {rate : Rate} {cmds : List Instr}
    (h : imageCommands hp img rate = .ok cmds) :
    rate ≠ 0#32 ∧ ∃ fs : List FreqCode, cmds = constructionCommands rate ++ fs.map Instr.osctick := by
  unfold imageCommands at h
  split_ifs at h with h0
  split at h
  · cases h
  · next fs _ => exact ⟨h0, fs, (Except.ok.inj h).symm⟩

/-- The commands of an encode are those of its pixels and those of its Image. -/
theorem commandsFrom_eq_ok {built : Except ImageError Image} {hp : HostParams} {rgb : List Byte} {rate : Rate}
    {cmds : List Instr} (h : commandsFrom built hp rgb rate = .ok cmds) :
    ∃ img imgCmds, imageCommands hp img rate = .ok imgCmds ∧ cmds = cscCommands rgb ++ imgCmds := by
  unfold commandsFrom at h
  split at h
  · cases h
  · next img =>
    split at h
    · cases h
    · next imgCmds himg => exact ⟨img, imgCmds, himg, (Except.ok.inj h).symm⟩

/-- The commands of an encode run to the end from every state, each answered `OK` (R194, R254). -/
theorem runCommands_encode {rate : Rate} (h0 : rate ≠ 0#32) (rgb : List Byte) (fs : List FreqCode) (s : State) :
    ∃ b rsps, runCommands ((cscCommands rgb ++ (constructionCommands rate ++ fs.map Instr.osctick)).map encode) s =
      .next (s.afterRun b rsps) ∧ AllOk rsps := by
  obtain ⟨pixels, hpixels, hok⟩ :=
    runOn_cscCommands (p := Config.params) (c := phaseCarrier Config.params.z0) rgb s.block
  have hrun := runOn_append hpixels
    (runOn_append (runOn_constructionCommands params_wf h0 s.block) (runOn_osctickCommands h0 fs))
  rw [← List.map_append, ← List.map_append] at hrun
  exact ⟨_, _, runCommands_of_runOn hrun,
    allOk_append hok (allOk_append (allOk_constructionAnswers rate) (allOk_map _ _))⟩

/-- From reset the responses of a run are all there are. -/
theorem noErrorResponse_afterRun_reset {b : Block Phase} {rsps : List Word} (h : AllOk rsps) :
    (State.reset.afterRun b rsps).noErrorResponse = true :=
  List.all_eq_true.mpr fun rsp hrsp => beq_iff_eq.mpr (h rsp hrsp)

/-- Settles O60: an encode is the run of its pixels, of the construction and of its ticks, each answered `OK` by the block, and
the host reads its counts and its samples off the responses. -/
theorem wholeEncodeAnswersOk : Obligations.WholeEncodeAnswersOk := by
  refine ⟨fun hp width height rgb rate cmds h => ?encode, fun hp img s => ⟨if_pos rfl, if_pos rfl⟩,
    fun hp img rate s h0 => ?encoder⟩
  case encode =>
    obtain ⟨img, imgCmds, himg, rfl⟩ := h.elim commandsFrom_eq_ok commandsFrom_eq_ok
    obtain ⟨h0, fs, rfl⟩ := imageCommands_eq_ok himg
    obtain ⟨b, rsps, hrun, hok⟩ := runCommands_encode h0 rgb fs State.reset
    refine ⟨h0, _, hrun, noErrorResponse_afterRun_reset hok, ?_⟩
    rw [runCommands_length hrun, List.length_map]
    exact Nat.zero_add _
  case encoder =>
    refine ⟨_, _, encoder_new_ok img h0 s, rfl, rfl, rfl, fun fs hfs => ?_⟩
    obtain ⟨u, hsmps⟩ := waveform_samples_ok h0 fs (s := s.afterRun (construct rate _) (constructionAnswers rate)) rfl
    exact ⟨_, _, _, u, encoder_encode_ok rfl hfs, encoder_encode_consumed rfl, hsmps, rfl⟩

end Sys2Proof.Machine
end
